-- ==== Sys2Proof/Word.lean ====
section
/-! DEFINITION. The bit vectors of the engine: bytes of a frame and 16-bit register words (00_scope.md R14). -/

namespace Sys2Proof

/-- An unsigned 8-bit value (R14). -/
abbrev Byte := BitVec 8

/-- An unsigned 16-bit value (R14): a holding register, a protocol field, a checksum. -/
abbrev Word := BitVec 16

/-- A frame: the full on-wire byte sequence of a request or a response (R41, R60). -/
abbrev Frame := List Byte

end Sys2Proof
end

