-- ==== Sys2Proof/Config.lean ====
section
/-! DEFINITION. What a run of the engine takes as given: the spec's fixed constants (00_scope.md R10), the values
chosen for its open parameters, and the free values. -/

namespace Sys2Proof

/-- `MAX_INDEX` (R10): the highest register index. -/
abbrev Config.maxIndex : Nat := 999

/-- `FC_READ` (R10). -/
abbrev Config.fcRead : Byte := 0x03#8

/-- `FC_WRITE` (R10). -/
abbrev Config.fcWrite : Byte := 0x10#8

/-- `EXC_FLAG` (R10): the bit that marks an exception reply. -/
abbrev Config.excFlag : Byte := 0x80#8

/-- `CRC_POLY` (R10). -/
abbrev Config.crcPoly : Word := 0xA001#16

/-- `CRC_INIT` (R10). -/
abbrev Config.crcInit : Word := 0xFFFF#16

/-- `READ_REQ_LEN` (R10): the least length of a 0x03 request (R154). -/
abbrev Config.readReqLen : Nat := 8

/-- The least length of a 0x10 request (R160): `WRITE_HDR_LEN` 7 (R10) and the two checksum bytes. -/
abbrev Config.writeReqMinLen : Nat := 9

/-- DESIGN CHOICE (entry 1; unsafe): DEVICE_ID at `State.reset`. The spec leaves the parameter `deviceId` open (R11);
`State.boot` takes any value, and no statement rests on this one. -/
def Config.deviceId : Byte := 0x01#8

/-- The CRC working register at reset: "unspecified" in R31. DESIGN CHOICE (entry 3; unsafe): zero. -/
def Config.crcAtReset : Word := 0#16

/-- The parameter `strictStartCheck` of 93_implementation_defined.md M1, at its default `false`, which is the reading of
R155. DESIGN CHOICE of the spec (D9; entry 15; unsafe for the single request it concerns). -/
def Config.strictStartCheck : Bool := false

/-- FREE VALUE (entry 7; safe): which of several waiting frames the engine takes next, which the spec leaves open
(60_exceptions.md R218, M7). It is applied to a counter of State, so that each choice is a fresh one. -/
opaque Config.serviceChoice : Nat → Nat

/-- FREE VALUE (entry 19; safe): the parameter `unknownFrameLen` of the HOST's framer (70_reset_and_hazards.md R248,
D23). It is no part of the engine. -/
opaque Config.unknownFrameLen : Nat

end Sys2Proof
end

