-- ==== Sys2Proof/Syntax.lean ====
section
/-! DEFINITION. The instructions: one constructor per row of spec/opcode_table.json. The three frame rows carry the
fields of 30_encoding.md R61, R63 and R69; the four component rows carry the operands of R100, R103, R121 and R124. -/

namespace Sys2Proof

/-- One value to encode (00_scope.md R17, 42_pdu_codec.md R120): `B1(v)`, a 1-byte field, or `W2(v)`, a 2-byte
big-endian field. The value is a natural number, because R122 says what happens when it does not fit. -/
inductive FieldSpec where
  | b1 (v : Nat)
  | w2 (v : Nat)
  deriving DecidableEq, Repr

/-- One entry of a layout (R17, R120): a field width of 1 or 2 bytes. -/
inductive Width where
  | one
  | two
  deriving DecidableEq, Repr

/-- The result of a decode that found a matching checksum (R120). -/
structure DecodedPDU where
  unitId : Byte
  functionId : Byte
  fields : List Nat
  deriving DecidableEq, Repr

/-- The exception codes (30_encoding.md R76). -/
inductive ExceptionCode where
  | illegalFunction
  | illegalDataAddress
  | illegalDataValue
  | checksumFailure
  deriving DecidableEq, Repr

/-- The reasons of a `Fault` outcome (60_exceptions.md R206). -/
inductive FaultReason where
  /-- A frame too short for the check that reads it (R125, R151, R152, R154, R160). -/
  | frameTooShort
  /-- A field value wider than its field (R122, R156). -/
  | fieldOverflow
  deriving DecidableEq, Repr

/-- What follows bytes 0 and 1 in a 0x03 frame (R61). -/
inductive ReadRequest where
  /-- A frame of at least 8 bytes: start, quantity, the bytes past byte 5 that no field takes (R127; none in an 8-byte
  frame), and the transmitted checksum (R68). -/
  | complete (start quantity : Word) (surplus : List Byte) (crcRx : Word)
  /-- The bytes from byte 2 on of a frame of fewer than 8 bytes, which R154 faults. -/
  | short (body : List Byte)
  deriving DecidableEq, Repr

/-- What follows bytes 0 and 1 in a 0x10 frame (R63, R73). -/
inductive WriteRequest where
  /-- A frame of at least 9 bytes: start, quantity, byteCount, the value words, the last data byte if their run is of odd
  length (R73), and the transmitted checksum (R68). -/
  | complete (start quantity : Word) (byteCount : Byte) (values : List Word) (odd : Option Byte) (crcRx : Word)
  /-- The bytes from byte 2 on of a frame of fewer than 9 bytes, which R160 faults. -/
  | short (body : List Byte)
  deriving DecidableEq, Repr

/-- The rows of spec/opcode_table.json. -/
inductive Instr where
  /-- READ_HOLDING_REGISTERS, function code 0x03 (43_dispatcher.md R154). -/
  | readHoldingRegisters (unitId : Byte) (req : ReadRequest)
  /-- WRITE_MULTIPLE_REGISTERS, function code 0x10 (R160). -/
  | writeMultipleRegisters (unitId : Byte) (req : WriteRequest)
  /-- ILLEGAL_FUNCTION, every other function code (R170); `rest` is bytes 2 and on, which are not read. -/
  | illegalFunction (unitId functionId : Byte) (rest : List Byte)
  /-- CRC_COMPUTE (41_checksum_engine.md R100). -/
  | crcCompute (bytes : List Byte)
  /-- CRC_VALIDATE (R103). -/
  | crcValidate (bytes : List Byte) (expected : Word)
  /-- PDU_ENCODE (42_pdu_codec.md R121). -/
  | pduEncode (unitId functionId : Byte) (fields : List FieldSpec)
  /-- PDU_DECODE (R124). -/
  | pduDecode (frame : Frame) (layout : List Width)
  deriving DecidableEq, Repr

end Sys2Proof
end

