-- ==== Sys2Proof/Machine/Operands.lean ====
section
/-! DEFINITION. Operand forms: byte order (20_memory.md R42, R43), field widths and field bytes (30_encoding.md R66 to
R68), the layouts of the two served functions (R73, R74), the range check (43_dispatcher.md R155) and the exception
codes (R76). -/

namespace Sys2Proof.Machine

/-- `v[15:8]`. -/
def hiByte (v : Word) : Byte := v.extractLsb' 8 8

/-- `v[7:0]`. -/
def loByte (v : Word) : Byte := v.extractLsb' 0 8

/-- `hi << 8 | lo` (R42, R66). -/
def wordOf (hi lo : Byte) : Word := hi.setWidth 16 <<< 8 ||| lo.setWidth 16

/-- A 2-byte field as it is emitted, high byte first (R42). -/
def beBytes (v : Word) : List Byte := [hiByte v, loByte v]

/-- A checksum as it is appended, low byte first (R43, R68). -/
def leBytes (c : Word) : List Byte := [loByte c, hiByte c]

/-- `width` of a field (R120). -/
def fieldWidth : FieldSpec → Width
  | .b1 _ => .one
  | .w2 _ => .two

/-- The value of a field, as R128 flattens it. -/
def fieldValue : FieldSpec → Nat
  | .b1 v => v
  | .w2 v => v

/-- A width in bytes. -/
def widthBytes : Width → Nat
  | .one => 1
  | .two => 2

/-- `Σ layout`: the bytes the fields of a layout take (R124). -/
def layoutBytes : List Width → Nat
  | [] => 0
  | w :: ws => widthBytes w + layoutBytes ws

/-- Whether a field's value fits its width (R67). -/
def fieldFits : FieldSpec → Bool
  | .b1 v => decide (v ≤ 255)
  | .w2 v => decide (v ≤ 65535)

/-- The bytes of one field, or none where its value does not fit (R67, R121, R122). -/
def fieldBytes (x : FieldSpec) : Option (List Byte) :=
  if fieldFits x then
    match x with
    | .b1 v => some [BitVec.ofNat 8 v]
    | .w2 v => some (beBytes (BitVec.ofNat 16 v))
  else none

/-- The bytes of a sequence of fields, in order, or none where one does not fit (R121). -/
def fieldsBytes : List FieldSpec → Option (List Byte)
  | [] => some []
  | x :: xs =>
    match fieldBytes x, fieldsBytes xs with
    | some a, some b => some (a ++ b)
    | _, _ => none

/-- The layout walk from byte `k` of frame `f` (R66, R124). A byte past the end of `f` reads as 0; `pduDecode` tests the
length first (R125), so no such byte is read. -/
def walkFields (f : Frame) (k : Nat) : List Width → List Nat
  | [] => []
  | .one :: ws => (f.getD k 0#8).toNat :: walkFields f (k + 1) ws
  | .two :: ws => (wordOf (f.getD k 0#8) (f.getD (k + 1) 0#8)).toNat :: walkFields f (k + 2) ws

/-- The layout of 0x03 (R74): start and quantity. -/
def readLayout : List Width := [.two, .two]

/-- The number of value fields of a 0x10 frame of length `n` (R73): `(n - 9) div 2`. -/
def writeValueCount (n : Nat) : Nat := (n - 9) / 2

/-- The layout of a 0x10 frame of length `n` (R73): start, quantity, byteCount, then the value fields. -/
def writeLayout (n : Nat) : List Width :=
  [.two, .two, .one] ++ List.replicate (writeValueCount n) .two

/-- `RangeOk` with the parameter of M1: `start + quantity - 1 <= 999` over the integers (R155); where `strict` is set,
`start <= 999` as well. -/
def rangeOkWith (strict : Bool) (start quantity : Nat) : Bool :=
  decide (start + quantity ≤ Config.maxIndex + 1) && (!strict || decide (start ≤ Config.maxIndex))

/-- `RangeOk` (R155). -/
def rangeOk (start quantity : Nat) : Bool := rangeOkWith Config.strictStartCheck start quantity

/-- The value of an exception code on the wire (R76). -/
def exceptionCode : ExceptionCode → Nat
  | .illegalFunction => 1
  | .illegalDataAddress => 2
  | .illegalDataValue => 3
  | .checksumFailure => 4

end Sys2Proof.Machine
end

