-- ==== Sys2Proof/WellFormed.lean ====
section
/-! DEFINITION. Which instruction terms stand for a frame: a check of the operands as syntax. -/

namespace Sys2Proof

/-- A 0x03 request is written `short` only for a frame of fewer than 8 bytes: fewer than 6 after byte 1 (R154). -/
def ReadRequest.wellFormed : ReadRequest → Bool
  | .complete _ _ _ _ => true
  | .short body => decide (body.length < Config.readReqLen - 2)

/-- A 0x10 request is written `short` only for a frame of fewer than 9 bytes: fewer than 7 after byte 1 (R160). -/
def WriteRequest.wellFormed : WriteRequest → Bool
  | .complete _ _ _ _ _ _ => true
  | .short body => decide (body.length < Config.writeReqMinLen - 2)

/-- Every term of a component operation is well-formed: R100, R103, R121 and R124 take any operands. An illegal function
code is one of the 254 other than 0x03 and 0x10 (R69). -/
def Instr.wellFormed : Instr → Bool
  | .readHoldingRegisters _ req => req.wellFormed
  | .writeMultipleRegisters _ req => req.wellFormed
  | .illegalFunction _ fc _ => decide (fc ≠ Config.fcRead) && decide (fc ≠ Config.fcWrite)
  | .crcCompute _ => true
  | .crcValidate _ _ => true
  | .pduEncode _ _ _ => true
  | .pduDecode _ _ => true

end Sys2Proof
end

