-- ==== Sys2Proof/Decode.lean ====
section
/-! DEFINITION. The decoder, from a frame to an instruction (30_encoding.md R61, R63, R69), the encoder written from the
same tables, and the decoder as spec/opcode_table.json numbers an instruction's bits. -/

namespace Sys2Proof

/-- Why a frame holds no instruction: the fields EntryCheck and FunctionSelect read are not there (R151, R152). -/
inductive DecodeError where
  /-- The empty frame has no byte 0. -/
  | noUnitId
  /-- A 1-byte frame has no byte 1. -/
  | noFunctionCode
  deriving DecidableEq, Repr

/-- Splits off the transmitted checksum, the last two bytes, low byte first (R68). -/
def splitCrc : List Byte → Option (List Byte × Word)
  | [] => none
  | [_] => none
  | [lo, hi] => some ([], Machine.wordOf hi lo)
  | b :: c :: d :: rest =>
    match splitCrc (c :: d :: rest) with
    | some (data, crc) => some (b :: data, crc)
    | none => none

/-- The run of 2-byte value fields of a 0x10 frame, and its last byte where the run is of odd length (R73). -/
def splitValues : List Byte → List Word × Option Byte
  | [] => ([], none)
  | [b] => ([], some b)
  | hi :: lo :: rest => (Machine.wordOf hi lo :: (splitValues rest).1, (splitValues rest).2)

/-- Bytes 2 and on of a 0x03 frame (R61). -/
def decodeRead (body : List Byte) : ReadRequest :=
  match body with
  | sh :: sl :: qh :: ql :: rest =>
    match splitCrc rest with
    | some (surplus, crc) => .complete (Machine.wordOf sh sl) (Machine.wordOf qh ql) surplus crc
    | none => .short body
  | _ => .short body

/-- Bytes 2 and on of a 0x10 frame (R63, R73). -/
def decodeWrite (body : List Byte) : WriteRequest :=
  match body with
  | sh :: sl :: qh :: ql :: bc :: rest =>
    match splitCrc rest with
    | some (data, crc) =>
      .complete (Machine.wordOf sh sl) (Machine.wordOf qh ql) bc (splitValues data).1 (splitValues data).2 crc
    | none => .short body
  | _ => .short body

/-- The instruction of a frame: byte 1, matched exactly on all 8 bits, selects it (R69). Total on any bytes. -/
def decode : Frame → Except DecodeError Instr
  | [] => .error .noUnitId
  | [_] => .error .noFunctionCode
  | u :: fc :: body =>
    if fc = Config.fcRead then .ok (.readHoldingRegisters u (decodeRead body))
    else if fc = Config.fcWrite then .ok (.writeMultipleRegisters u (decodeWrite body))
    else .ok (.illegalFunction u fc body)

/-- Bytes 2 and on of a 0x03 frame (R61). -/
def encodeRead : ReadRequest → List Byte
  | .complete start quantity surplus crc =>
    Machine.beBytes start ++ Machine.beBytes quantity ++ surplus ++ Machine.leBytes crc
  | .short body => body

/-- Bytes 2 and on of a 0x10 frame (R63). -/
def encodeWrite : WriteRequest → List Byte
  | .complete start quantity bc values odd crc =>
    Machine.beBytes start ++ Machine.beBytes quantity ++ [bc] ++ values.flatMap Machine.beBytes ++ odd.toList
      ++ Machine.leBytes crc
  | .short body => body

/-- The frame of a 0x03 request. -/
def readFrame (u : Byte) (req : ReadRequest) : Frame := u :: Config.fcRead :: encodeRead req

/-- The frame of a 0x10 request. -/
def writeFrame (u : Byte) (req : WriteRequest) : Frame := u :: Config.fcWrite :: encodeWrite req

/-- The frame of a request with any other function code (R69: `ANY_REQ`). -/
def anyFrame (u fc : Byte) (rest : List Byte) : Frame := u :: fc :: rest

/-- The frame of an instruction. The component operations have none: they are "not selected by an encoding". -/
def encode : Instr → Option Frame
  | .readHoldingRegisters u req => some (readFrame u req)
  | .writeMultipleRegisters u req => some (writeFrame u req)
  | .illegalFunction u fc rest => some (anyFrame u fc rest)
  | .crcCompute _ => none
  | .crcValidate _ _ => none
  | .pduEncode _ _ _ => none
  | .pduDecode _ _ => none

/-- The least length of a frame that its function's own length check lets through (R152, R154, R160). -/
def leastLength (fc : Byte) : Nat :=
  if fc = Config.fcRead then Config.readReqLen
  else if fc = Config.fcWrite then Config.writeReqMinLen
  else 2

/-- The frame for unit `u` whose bytes from byte 1 on are the bits of `w` as spec/opcode_table.json numbers them (entry
11): the table's bits 7..0 are frame byte 1, bits 15..8 byte 2, and so on; every further byte, up to the least length of
the function's frames, is 0. -/
def tableFrame (u : Byte) (nbits w : Nat) : Frame :=
  let bits := w % 2 ^ nbits
  let fc := BitVec.ofNat 8 bits
  let more := (List.range ((nbits - 1) / 8)).map fun j => BitVec.ofNat 8 (bits >>> (8 * (j + 1)))
  u :: fc :: (more ++ List.replicate (leastLength fc - 2 - more.length) 0#8)

/-- The instruction the decoder reads from a table word, addressed to the unit id at reset (entry 11). -/
def decodeTableWord (nbits w : Nat) : Option Instr :=
  match decode (tableFrame Config.deviceId nbits w) with
  | .ok i => some i
  | .error _ => none

end Sys2Proof
end

