-- ==== Sys2Proof/Machine/State.lean ====
section
/-! DEFINITION. The state of the engine (10_state.md), as plain data, and its value at reset (R31). -/

namespace Sys2Proof.Machine

/-- The Register Bank `HR` (R20): exactly `BANK_SIZE` = 1000 registers of 16 bits, indexed 0..999. -/
abbrev Bank := Vector Word 1000

/-- The phase of the Dispatcher (R26): the source's phases and the spec's Idle, Discarded and Faulted. -/
inductive Phase where
  | idle
  | received
  | functionIdentified
  | decoded
  | checksumFailed
  | validated
  | rejected
  | applied
  | responded
  | discarded
  | faulted
  deriving DecidableEq, Repr

/-- One delivery at the Request port (60_exceptions.md R216): a frame, and the connection of the transport it came
from. The engine reads no requester (R217); the tag only takes the response back to it (entry 8). -/
structure Request where
  requester : Nat
  frame : Frame
  deriving DecidableEq, Repr

/-- The events of the output ports (00_scope.md R16, R216). -/
inductive PortEvent where
  /-- `Save(HR)`: the whole bank, to the Persistence store (R163). -/
  | save (bank : Bank)
  /-- `Respond(r)`: a response frame, to the requester whose frame produced it (R217); none where no frame is captured. -/
  | respond (requester : Option Nat) (response : Frame)
  deriving DecidableEq, Repr

/-- What an operation answers to its caller. The first three are the outcomes of a request (R15), of which `fault` is also
the answer of a component operation used on its own that faults (R206); the others are the results of the component
operations (R100, R103, R121, R124). -/
inductive OpResult where
  | respond (response : Frame)
  | discard
  | fault (reason : FaultReason)
  | checksum (crc : Word)
  | verdict (valid : Bool)
  | encoded (frame : Frame)
  | decoded (pdu : Option DecodedPDU)
  deriving DecidableEq, Repr

/-- The state. Every field but the last two is the spec's (10_state.md R31); the last two are the model's own. -/
structure State where
  /-- `HR[0..999]` (R20). -/
  bank : Bank
  /-- `DEVICE_ID` (R22). -/
  deviceId : Byte
  /-- The Dispatcher's phase (R26). -/
  phase : Phase
  /-- `FAULTED` (R28): sticky. -/
  faulted : Bool
  /-- `BUSY` (R29). -/
  busy : Bool
  /-- The CRC working register (R30). -/
  crc : Word
  /-- The captured frame `f` (R27), while a request is in flight. -/
  captured : Option Request
  /-- Frames delivered and not yet taken (R216, R217), in the order of delivery. -/
  waiting : List Request
  /-- Port events the collaborators have not taken yet (R31), oldest first (entry 9). -/
  events : List PortEvent
  /-- The model's own (entry 7): how many choices of a waiting frame the engine has made. -/
  served : Nat
  /-- The model's own (entry 6): what the last operation answered. No operation reads it. -/
  result : Option OpResult
  deriving DecidableEq, Repr

/-- The reasons a step stops. -/
inductive Fault where
  /-- Raised by `step` in a state whose FAULTED mark is set: "While it is set the engine takes no further request step"
  (R28, M8: stuck). Safe: the hardware may go on serving (D7), and the model proves nothing of such runs. -/
  | engineFaulted
  deriving DecidableEq, Repr

/-- The reasons an operation is refused. -/
inductive Refusal where
  /-- Raised by `exec` for an instruction that has no meaning yet; no arm does. Safe. -/
  | notModelled (mnemonic : String)
  /-- Raised by `State.boot`, never by a step: the persisted image is not 1000 values of 16 bits, and "A model refuses a
  launch whose image breaks it" (R241). Safe. -/
  | malformedImage
  deriving DecidableEq, Repr

/-- The state after reset for a unit id and a bank (R31, R242). -/
def State.resetWith (deviceId : Byte) (bank : Bank) : State where
  bank := bank
  deviceId := deviceId
  phase := .idle
  faulted := false
  busy := false
  crc := Config.crcAtReset
  captured := none
  waiting := []
  events := []
  served := 0
  result := none

/-- The all-zero bank, used when no persisted image exists (R12, R31). -/
def Bank.zero : Bank := Vector.replicate 1000 0#16

/-- The machine right after reset: no persisted image (entry 2), and the unit id of entry 1. -/
def State.reset : State := State.resetWith Config.deviceId Bank.zero

end Sys2Proof.Machine
end

