-- ==== Sys2Proof/Machine/Flags.lean ====
section
/-! DEFINITION. The marks of the engine. It has no status flags or condition codes (10_state.md R24); what it has is the
phase (R26), the fault mark (R28), the lock (R29) and the CRC working register (R30). -/

namespace Sys2Proof.Machine

/-- Moves the Dispatcher to a phase (R26). -/
def State.toPhase (p : Phase) (s : State) : State := { s with phase := p }

/-- Leaves a value in the CRC working register (R30). -/
def State.withCrc (c : Word) (s : State) : State := { s with crc := c }

/-- Answers a result to the caller of an operation. -/
def State.answer (r : OpResult) (s : State) : State := { s with result := some r }

/-- `raise Fault(reason)` (R16): "A fault emits nothing, changes no register, sets FAULTED, and stops the engine" (R206).
`step` does the stopping. -/
def raiseFault (reason : FaultReason) (s : State) : State :=
  { s with faulted := true, phase := .faulted, result := some (.fault reason) }

/-- `end with Discard` (R151): nothing is emitted. -/
def discardRequest (s : State) : State := { s with phase := .discarded, result := some .discard }

end Sys2Proof.Machine
end

