-- ==== Sys2Proof/Machine/ChecksumEngine.lean ====
section
/-! DEFINITION. The Checksum Engine (41_checksum_engine.md) and the meanings of CRC_COMPUTE and CRC_VALIDATE. -/

namespace Sys2Proof.Machine

/-- `CrcBit` (R102). -/
def crcBit (crc : Word) : Word :=
  if crc.getLsbD 0 then (crc >>> 1) ^^^ Config.crcPoly else crc >>> 1

/-- `n` bit steps. -/
def crcBits : Nat → Word → Word
  | 0, crc => crc
  | n + 1, crc => crcBits n (crcBit crc)

/-- `CrcByte` (R101): XOR the byte into the low byte, then 8 bit steps. -/
def crcByte (crc : Word) (b : Byte) : Word := crcBits 8 (crc ^^^ b.setWidth 16)

/-- `CRC16(bytes)` (R100). -/
def crc16 (bytes : List Byte) : Word := bytes.foldl crcByte Config.crcInit

/-- Runs `compute` over the working register (R30, R100): the register ends at the checksum, and "the value returned is
the register as it stands" (entry 4). -/
def runCompute (bytes : List Byte) (s : State) : State := s.withCrc (crc16 bytes)

/-- CRC_COMPUTE (R100): the checksum is read out of the working register. -/
def execCrcCompute (bytes : List Byte) (s : State) : Host.Outcome State Fault Refusal :=
  .next ((runCompute bytes s).answer (.checksum (runCompute bytes s).crc))

/-- CRC_VALIDATE (R103): `compute(bytes) == expected`, on all 16 bits. -/
def execCrcValidate (bytes : List Byte) (expected : Word) (s : State) : Host.Outcome State Fault Refusal :=
  .next ((runCompute bytes s).answer (.verdict (decide ((runCompute bytes s).crc = expected))))

end Sys2Proof.Machine
end

