-- ==== Sys2Proof/Machine/PduCodec.lean ====
section
/-! DEFINITION. The PDU Codec (42_pdu_codec.md): encode and decode as functions, their runs over the CRC working register,
and the meanings of PDU_ENCODE and PDU_DECODE. The Codec touches no other state (R129). -/

namespace Sys2Proof.Machine

/-- Appends the checksum of everything emitted so far, low byte first (R121). -/
def sealFrame (out : List Byte) : Frame := out ++ leBytes (crc16 out)

/-- The bytes before the checksum: `[u, fn]` and the fields; none where a field does not fit (R121, R122). -/
def encodeBody (u fn : Byte) (fields : List FieldSpec) : Option (List Byte) :=
  match fieldsBytes fields with
  | some bs => some (u :: fn :: bs)
  | none => none

/-- `Encode(u, fn, fields)` (R121). -/
def pduEncode (u fn : Byte) (fields : List FieldSpec) : Except FaultReason Frame :=
  match encodeBody u fn fields with
  | some out => .ok (sealFrame out)
  | none => .error .fieldOverflow

/-- The checksum input of a frame: every byte but the last two (R60, R124). -/
def coveredBytes (f : Frame) : List Byte := f.take (f.length - 2)

/-- The transmitted checksum `f[n-2] | f[n-1] << 8` (R68). -/
def receivedCrc (f : Frame) : Word := wordOf (f.getD (f.length - 1) 0#8) (f.getD (f.length - 2) 0#8)

/-- Whether a frame is long enough to hold the header, the layout and the checksum (R124, R125). -/
def fitsLayout (f : Frame) (layout : List Width) : Bool := decide (2 + layoutBytes layout + 2 ≤ f.length)

/-- `Decode(f, layout)` (R124): the length first (R125), then the checksum (R126), then the walk from byte 2. -/
def pduDecode (f : Frame) (layout : List Width) : Except FaultReason (Option DecodedPDU) :=
  if fitsLayout f layout then
    if crc16 (coveredBytes f) = receivedCrc f then
      .ok (some { unitId := f.getD 0 0#8, functionId := f.getD 1 0#8, fields := walkFields f 2 layout })
    else .ok none
  else .error .frameTooShort

/-- The state after an `Encode`: the Checksum Engine has run over the bytes emitted, unless a field raised the fault before
(R121). -/
def afterEncode (u fn : Byte) (fields : List FieldSpec) (s : State) : State :=
  match encodeBody u fn fields with
  | some out => runCompute out s
  | none => s

/-- The state after a `Decode`: the Checksum Engine has run over the checksum input, unless the frame was too short (R124,
R125). -/
def afterDecode (f : Frame) (layout : List Width) (s : State) : State :=
  if fitsLayout f layout then runCompute (coveredBytes f) s else s

/-- PDU_ENCODE (R121): the frame, or `Fault(FieldOverflow)` (R122). -/
def execPduEncode (u fn : Byte) (fields : List FieldSpec) (s : State) : Host.Outcome State Fault Refusal :=
  match pduEncode u fn fields with
  | .ok f => .next ((afterEncode u fn fields s).answer (.encoded f))
  | .error e => .next (raiseFault e (afterEncode u fn fields s))

/-- PDU_DECODE (R124): the PDU or None, or `Fault(FrameTooShort)` (R125). -/
def execPduDecode (f : Frame) (layout : List Width) (s : State) : Host.Outcome State Fault Refusal :=
  match pduDecode f layout with
  | .ok p => .next ((afterDecode f layout s).answer (.decoded p))
  | .error e => .next (raiseFault e (afterDecode f layout s))

end Sys2Proof.Machine
end

