-- ==== Sys2Proof/Machine/Ops.lean ====
section
/-! DEFINITION. The named operations over the bank and the ports, building a response, and TAKING AN EXCEPTION
(43_dispatcher.md R172, 60_exceptions.md R208); what a request step does before and after its operation (R150 to R152). -/

namespace Sys2Proof.Machine

/-- `HR[i]`. A number past 999 names no register (R49) and reads as 0; no request reads one, because the range check comes
first (R155; entry 13). -/
def readReg (b : Bank) (i : Nat) : Word := b.getD i 0#16

/-- `HR[i] <- v`. A number past 999 names no register and nothing is written (entry 13). -/
def writeReg (b : Bank) (i : Nat) (v : Word) : Bank := b.setIfInBounds i v

/-- `MemRead(a, n)` (00_scope.md R16): `HR[a], ..., HR[a+n-1]`, in ascending order (R46). -/
def memRead (b : Bank) (a n : Nat) : List Word := (List.range n).map fun k => readReg b (a + k)

/-- `MemWrite(a, n, vs)` (R16) for n values: `HR[a+k] <- vs[k]`, in ascending k (R46, R56). -/
def memWrite (b : Bank) (a : Nat) : List Word → Bank
  | [] => b
  | v :: vs => memWrite (writeReg b a v) (a + 1) vs

/-- `emit Save(HR)` (R163): the whole bank as it stands. -/
def emitSave (s : State) : State := { s with events := s.events ++ [.save s.bank] }

/-- `emit Respond(r)` (R15): to the requester whose frame is captured (R217). The request ends here. -/
def emitRespond (r : Frame) (s : State) : State :=
  { s with events := s.events ++ [.respond (s.captured.map Request.requester) r], phase := .responded,
           result := some (.respond r) }

/-- `emit Respond(Encode(u, fn, fields))` (R123), or the Fault that Encode raises. -/
def respondWith (u fn : Byte) (fields : List FieldSpec) (s : State) : State :=
  match pduEncode u fn fields with
  | .ok r => emitRespond r (afterEncode u fn fields s)
  | .error e => raiseFault e (afterEncode u fn fields s)

/-- TAKING AN EXCEPTION: `raise Exception(code)` for the frame `f` (R172): the response
`Encode(f[0], f[1] | 0x80, [B1(code)])`, whose header is the raw bytes 0 and 1 (R171). It saves no state, changes no mode
and writes no register (R208); the request ends with it and there is no return (R209). -/
def raiseException (f : Frame) (code : ExceptionCode) (s : State) : State :=
  respondWith (f.getD 0 0#8) (f.getD 1 0#8 ||| Config.excFlag) [.b1 (exceptionCode code)] (s.toPhase .rejected)

/-- Return from an exception: there is none (R209). After any end of a request the lock is released, the frame is let go,
and the engine is Idle; but `Faulted` is never left (R26, R28). -/
def finishRequest (s : State) : State :=
  { s with captured := none, busy := false, phase := if s.faulted then .faulted else .idle }

/-- Takes a waiting frame: the only one, or, of several, the one the free value picks (R218). Answers it with the ones left
waiting. -/
def selectRequest (n : Nat) : List Request → Option (Request × List Request)
  | [] => none
  | [r] => some (r, [])
  | r :: r' :: rs =>
    let all := r :: r' :: rs
    let k := Config.serviceChoice n % all.length
    some (all.getD k r, all.eraseIdx k)

/-- Captures a frame (R27): the lock is taken (R29) and the Dispatcher is in phase Received (R26). -/
def captureRequest (r : Request) (rest : List Request) (s : State) : State :=
  { s with captured := some r, waiting := rest, busy := true, phase := .received, served := s.served + 1 }

/-- What EntryCheck finds (R151). -/
inductive EntryVerdict where
  /-- The frame is for this unit. -/
  | accept
  /-- The frame is for another unit. -/
  | discard
  /-- The frame has no byte 0. -/
  | tooShort
  deriving DecidableEq, Repr

/-- `EntryCheck(f)` (R151): plain 8-bit equality of byte 0 with DEVICE_ID. -/
def entryCheck (f : Frame) (deviceId : Byte) : EntryVerdict :=
  match f with
  | [] => .tooShort
  | u :: _ => if u = deviceId then .accept else .discard

/-- Applies a state change to a next state, and passes a stop on. -/
def mapNext (g : State → State) : Host.Outcome State Fault Refusal → Host.Outcome State Fault Refusal
  | .next s => .next (g s)
  | .fault e => .fault e
  | .refused e => .refused e

end Sys2Proof.Machine
end

