-- ==== Sys2Proof/Machine/Dispatcher.lean ====
section
/-! DEFINITION. The meanings of the three function-code operations (43_dispatcher.md R154, R160, R170). Each starts after
EntryCheck and FunctionSelect (R150), which are the step's. -/

namespace Sys2Proof.Machine

/-- R154 after the length check, for the frame `f` with its decode `p` at hand. -/
def serveRead (f : Frame) (p : DecodedPDU) (s : State) : State :=
  let start := p.fields.getD 0 0
  let quantity := p.fields.getD 1 0
  if rangeOk start quantity then
    let vals := memRead s.bank start quantity
    respondWith p.unitId p.functionId
      (.b1 (2 * quantity) :: vals.map fun v => .w2 v.toNat) ((s.toPhase .validated).toPhase .applied)
  else raiseException f .illegalDataAddress s

/-- READ_HOLDING_REGISTERS (R154). A frame that fails its length check, `len(f) < 8`, is what the decoder writes `short`. -/
def execReadHoldingRegisters (u : Byte) (req : ReadRequest) (s : State) : Host.Outcome State Fault Refusal :=
  match req with
  | .short _ => .next (raiseFault .frameTooShort s)
  | .complete _ _ _ _ =>
    let f := readFrame u req
    let s' := afterDecode f readLayout s
    match pduDecode f readLayout with
    | .error e => .next (raiseFault e s')
    | .ok none => .next (raiseException f .checksumFailure (s'.toPhase .checksumFailed))
    | .ok (some p) => .next (serveRead f p (s'.toPhase .decoded))

/-- Steps 2 to 5 of R160, for the frame `f` with its decode `p` of `m` value fields at hand: range, byteCount, value count,
then the writes, the Save and the response, in that order (R163). -/
def serveWrite (f : Frame) (p : DecodedPDU) (m : Nat) (s : State) : State :=
  let start := p.fields.getD 0 0
  let quantity := p.fields.getD 1 0
  let byteCount := p.fields.getD 2 0
  let values := ((p.fields.drop 3).take m).map (BitVec.ofNat 16)
  if rangeOk start quantity then
    if byteCount = 2 * quantity then
      if m = quantity then
        let s' := s.toPhase .validated
        let s'' := ({ s' with bank := memWrite s'.bank start values } : State).toPhase .applied
        respondWith p.unitId p.functionId [.w2 start, .w2 quantity] (emitSave s'')
      else raiseException f .illegalDataValue s
    else raiseException f .illegalDataValue s
  else raiseException f .illegalDataAddress s

/-- WRITE_MULTIPLE_REGISTERS (R160). A frame that fails its length check, `len(f) < 9`, is what the decoder writes
`short`. -/
def execWriteMultipleRegisters (u : Byte) (req : WriteRequest) (s : State) : Host.Outcome State Fault Refusal :=
  match req with
  | .short _ => .next (raiseFault .frameTooShort s)
  | .complete _ _ _ _ _ _ =>
    let f := writeFrame u req
    let s' := afterDecode f (writeLayout f.length) s
    match pduDecode f (writeLayout f.length) with
    | .error e => .next (raiseFault e s')
    | .ok none => .next (raiseException f .checksumFailure (s'.toPhase .checksumFailed))
    | .ok (some p) => .next (serveWrite f p (writeValueCount f.length) (s'.toPhase .decoded))

/-- ILLEGAL_FUNCTION (R170): only bytes 0 and 1 are read, and no checksum is tested. -/
def execIllegalFunction (u fc : Byte) (rest : List Byte) (s : State) : Host.Outcome State Fault Refusal :=
  .next (raiseException (anyFrame u fc rest) .illegalFunction s)

end Sys2Proof.Machine
end

