-- ==== Sys2Proof/Machine/Dispatch.lean ====
section
/-! DEFINITION. One instruction's meaning, by constructor: one arm per row of spec/opcode_table.json. -/

namespace Sys2Proof.Machine

open Sys2Proof

def exec (i : Instr) (s : State) : Host.Outcome State Fault Refusal :=
  match i with
  | .readHoldingRegisters u req => Sys2Proof.Machine.execReadHoldingRegisters u req s
  | .writeMultipleRegisters u req => Sys2Proof.Machine.execWriteMultipleRegisters u req s
  | .illegalFunction u fc rest => Sys2Proof.Machine.execIllegalFunction u fc rest s
  | .crcCompute bytes => Sys2Proof.Machine.execCrcCompute bytes s
  | .crcValidate bytes expected => Sys2Proof.Machine.execCrcValidate bytes expected s
  | .pduEncode u fn fields => Sys2Proof.Machine.execPduEncode u fn fields s
  | .pduDecode f layout => Sys2Proof.Machine.execPduDecode f layout s

end Sys2Proof.Machine
end

