-- ==== Sys2Proof/Machine/Step.lean ====
section
/-! DEFINITION. One step: one complete request frame in, one outcome out (00_scope.md R15, 43_dispatcher.md R150). -/

namespace Sys2Proof.Machine

/-- `Step(f)` (R150) for a captured request: EntryCheck, FunctionSelect, and the operation it selects. -/
def serveRequest (r : Request) (s : State) : Host.Outcome State Fault Refusal :=
  match entryCheck r.frame s.deviceId with
  | .tooShort => .next (raiseFault .frameTooShort s)
  | .discard => .next (discardRequest s)
  | .accept =>
    match decode r.frame with
    | .error _ => .next (raiseFault .frameTooShort s)
    | .ok i => exec i (s.toPhase .functionIdentified)

/-- A step is enabled only while FAULTED is 0 (R28, R150); with no frame waiting the engine stays Idle and keeps all state
(R215; entry 10). -/
def step (s : State) : Host.Outcome State Fault Refusal :=
  if s.faulted then .fault .engineFaulted
  else
    match selectRequest s.served s.waiting with
    | none => .next s
    | some (r, rest) => mapNext finishRequest (serveRequest r (captureRequest r rest s))

/-- `s` with the frame of a table word, addressed to this unit, as the one frame waiting (entry 11), so that the next step
serves it. -/
def State.withFetchWord (s : State) (nbits w : Nat) : State :=
  { s with waiting := [{ requester := 0, frame := tableFrame s.deviceId nbits w }] }

end Sys2Proof.Machine
end

