-- ==== Sys2Proof/Machine/Assembler.lean ====
section
/-! DEFINITION. The request notation of 30_encoding.md R75 (READ, WRITE, WRITE.raw, FRAMEC), used to write requests down. It
has no meaning of its own (D22). FRAME is the byte list itself. -/

namespace Sys2Proof.Machine

/-- The checksum input of a 0x03 request (R60, R61): every byte before its checksum. -/
def readInput (u : Byte) (start quantity : Word) (surplus : List Byte) : List Byte :=
  [u, Config.fcRead] ++ beBytes start ++ beBytes quantity ++ surplus

/-- The checksum input of a 0x10 request (R60, R63). -/
def writeInput (u : Byte) (start quantity : Word) (byteCount : Byte) (values : List Word) (odd : Option Byte) :
    List Byte :=
  [u, Config.fcWrite] ++ beBytes start ++ beBytes quantity ++ [byteCount] ++ values.flatMap beBytes ++ odd.toList

/-- `READ u, s, q` (R75). -/
def asmRead (u : Byte) (start quantity : Word) : Instr :=
  .readHoldingRegisters u (.complete start quantity [] (crc16 (readInput u start quantity [])))

/-- `WRITE.raw u, s, q, bc, v0, ...` (R75). -/
def asmWriteRaw (u : Byte) (start quantity : Word) (byteCount : Byte) (values : List Word) : Instr :=
  .writeMultipleRegisters u
    (.complete start quantity byteCount values none (crc16 (writeInput u start quantity byteCount values none)))

/-- `WRITE u, s, v0, ...` (R75): quantity and byteCount are derived from the list of values. R75 gives no bytes for a list
whose derived values do not fit: from 128 values on byteCount wraps modulo 256, and from 65536 on quantity wraps modulo
65536. DESIGN CHOICE (entry 25; safe). -/
def asmWrite (u : Byte) (start : Word) (values : List Word) : Instr :=
  asmWriteRaw u start (BitVec.ofNat 16 values.length) (BitVec.ofNat 8 (2 * values.length)) values

/-- `FRAMEC b0, ..., bk` (R75): the bytes with their CRC appended. -/
def asmFramec (bytes : List Byte) : Frame := sealFrame bytes

end Sys2Proof.Machine
end

