-- ==== Sys2Proof/Machine/Ports.lean ====
section
/-! DEFINITION. What the collaborators do at the engine's ports (60_exceptions.md R216), startup (70_reset_and_hazards.md
R240 to R243), and the lengths the host's framer must respect (R248). None of it is a step of the engine. -/

namespace Sys2Proof.Machine

/-- The Request port: the transport delivers one complete frame (R216); it waits until the engine takes it. -/
def State.deliver (r : Request) (s : State) : State := { s with waiting := s.waiting ++ [r] }

/-- The Response and Save ports: the collaborators take what is pending (entry 9). -/
def State.takeEvents (s : State) : List PortEvent × State := (s.events, { s with events := [] })

/-- The Monitoring port: "read-only snapshot query of the current RegisterBank contents", between two requests (R52). -/
def State.snapshot (s : State) : List Word := s.bank.toList

/-- Whether a persisted image is exactly 1000 values, each in 0..65535 (R241). -/
def imageValid (image : List Nat) : Bool := decide (image.length = 1000) && image.all fun v => decide (v ≤ 65535)

/-- The bank of a valid image: `HR[i] = initialBank(i)` (R241). -/
def bankOfImage (image : List Nat) : Bank := Vector.ofFn fun i => BitVec.ofNat 16 (image.getD i.val 0)

/-- Startup, which is the engine's reset (R240), in the order of R243: the Configuration source supplies the unit id, then
`load()` supplies an image or reports absence. A launch with an invalid image is refused (R241). -/
def State.boot (deviceId : Byte) (image : Option (List Nat)) : Host.Outcome State Fault Refusal :=
  match image with
  | none => .next (State.resetWith deviceId Bank.zero)
  | some l => if imageValid l then .next (State.resetWith deviceId (bankOfImage l)) else .refused .malformedImage

/-- The length at which the host's framer cuts a frame, from the bytes it holds so far (R248, R72): none until it can tell.
The length for any other function code is the host's open parameter (D23; entry 19). -/
def framerLength : List Byte → Option Nat
  | _ :: fc :: rest =>
    if fc = Config.fcRead then some 8
    else if fc = Config.fcWrite then
      match rest with
      | _ :: _ :: _ :: _ :: bc :: _ => some (7 + bc.toNat + 2)
      | _ => none
    else some Config.unknownFrameLen
  | _ => none

/-- A frame the framer cut where R248 says. -/
def correctlyFramed (f : Frame) : Prop := framerLength f = some f.length

end Sys2Proof.Machine
end

