-- ==== Sys2Proof/Safety.lean ====
section
/-! DEFINITION. The terms in which claims about the engine are stated: final states, the shapes a request leaves the state
in, the invariants, and the outcome of a request as a function of the raw frame bytes. -/

namespace Sys2Proof.Machine

/-- A state a run may end in: "a fault is never final" (10_state.md R28). -/
def State.isFinal (s : State) : Prop := s.faulted = false

/-- `s` after the engine answered with the frame whose bytes before the checksum are `body`: the response is the one new
event, sent to the requester whose frame is captured; phase, CRC working register and the model's `result` are the only
other fields that differ from `s`. -/
def State.afterResponse (body : List Byte) (s : State) : State :=
  { s with
    phase := .responded
    crc := crc16 body
    events := s.events ++ [.respond (s.captured.map Request.requester) (body ++ [loByte (crc16 body), hiByte (crc16 body)])]
    result := some (.respond (body ++ [loByte (crc16 body), hiByte (crc16 body)])) }

/-- `s` after a Fault outcome (00_scope.md R15, 60_exceptions.md R206) with `c` in the CRC working register: nothing is
emitted and no register changes. -/
def State.afterFault (reason : FaultReason) (c : Word) (s : State) : State :=
  { s with phase := .faulted, faulted := true, crc := c, result := some (.fault reason) }

/-- The bytes of a field whose value fits its width (42_pdu_codec.md R121): one byte, or two, high byte first. -/
def wireBytes : FieldSpec → List Byte
  | .b1 v => [BitVec.ofNat 8 v]
  | .w2 v => [BitVec.ofNat 8 (v / 256), BitVec.ofNat 8 (v % 256)]

/-- A port event with its response, if it is one, sent to another requester. -/
def PortEvent.redirect (dest : Option Nat) : PortEvent → PortEvent
  | .save b => .save b
  | .respond _ r => .respond dest r

/-- The bytes of registers `start .. start + n - 1`, each high byte first, in ascending order (30_encoding.md R62). -/
def registerBytes (b : Bank) (start n : Nat) : List Byte :=
  (List.range n).flatMap fun k => [hiByte (readReg b (start + k)), loByte (readReg b (start + k))]

/-- The image of the latest pending Save, if one is pending. -/
def lastSave : List PortEvent → Option Bank
  | [] => none
  | .save b :: es => (lastSave es).or (some b)
  | .respond _ _ :: es => lastSave es

/-- Between two requests (R26, R29): no lock, no frame, and the phase is Idle, or Faulted exactly where the mark is set. -/
def State.Quiescent (s : State) : Prop :=
  s.busy = false ∧ s.captured = none ∧ s.phase = (if s.faulted then .faulted else .idle)

/-- Every pending response is a frame of this unit with its checksum right (30_encoding.md R60, R65; 43_dispatcher.md
R171): its unit id is DEVICE_ID. -/
def State.ResponsesSealed (s : State) : Prop :=
  ∀ dest r, PortEvent.respond dest r ∈ s.events →
    ∃ fc body, r = sealFrame (s.deviceId :: fc :: body)

/-- The latest pending Save carries the bank as it stands: no write has gone by without its Save (43_dispatcher.md R163,
70_reset_and_hazards.md R245). -/
def State.SaveCurrent (s : State) : Prop := ∀ b, lastSave s.events = some b → b = s.bank

/-- The exception response to frame `f` with a code (30_encoding.md R65), from its bytes. -/
def exceptionReply (f : Frame) (code : Byte) : OpResult :=
  .respond (sealFrame [f.getD 0 0#8, f.getD 1 0#8 ||| 0x80#8, code])

/-- The outcome of a request as 60_exceptions.md R207 lists the causes, highest first, written over the raw bytes of the
frame: no instruction, no decoder, no codec. -/
def outcomeByPriority (deviceId : Byte) (b : Bank) (f : Frame) : OpResult :=
  let n := f.length
  let fc := f.getD 1 0#8
  let start := 256 * (f.getD 2 0#8).toNat + (f.getD 3 0#8).toNat
  let quantity := 256 * (f.getD 4 0#8).toNat + (f.getD 5 0#8).toNat
  if n = 0 then .fault .frameTooShort
  else if f.getD 0 0#8 ≠ deviceId then .discard
  else if n = 1 then .fault .frameTooShort
  else if fc ≠ 0x03#8 ∧ fc ≠ 0x10#8 then exceptionReply f 1#8
  else if n < (if fc = 0x03#8 then 8 else 9) then .fault .frameTooShort
  else if leBytes (crc16 (f.take (n - 2))) ≠ f.drop (n - 2) then exceptionReply f 4#8
  else if 1000 < start + quantity then exceptionReply f 2#8
  else if fc = 0x03#8 then
    if 128 ≤ quantity then .fault .fieldOverflow
    else .respond (sealFrame ([deviceId, 0x03#8, BitVec.ofNat 8 (2 * quantity)] ++ registerBytes b start quantity))
  else if (f.getD 6 0#8).toNat ≠ 2 * quantity then exceptionReply f 3#8
  else if (n - 9) / 2 ≠ quantity then exceptionReply f 3#8
  else .respond (sealFrame (deviceId :: 0x10#8 :: (f.drop 2).take 4))

end Sys2Proof.Machine
end

