-- ==== Sys2Proof/Certificates/Slice0/Obligations.lean ====
section
/-! DEFINITION. Statements about the engine for the provers. Each docstring names the rules of spec/ it formalises. Where an
equation `exec i s = .next t` gives `t` as `s` with fields changed, every field it does not name is as before: that is the
frame, and the completion, of the instruction. Two fields of these equations are not the spec's but the model's choice:
`result` is where an operation's answer can be read (entry 6), and `served` counts the choices of a waiting frame (entry
7); that the CRC working register keeps the last checksum is DEDUCED from R100 (entry 4). -/

open Sys2Proof Sys2Proof.Machine

/-! ## Encoding -/

/-- The decoder gives back every well-formed instruction that has a frame, with every operand (R61, R63, R68, R69, R73). -/
def Obligations.DecodeInvertsEncode : Prop :=
  ∀ (i : Instr) (f : Frame), i.wellFormed = true → encode i = some f → decode f = .ok i

/-- No frame is decoded into an instruction that stands for other bytes, or into an ill-formed one (R61, R63, R69). -/
def Obligations.EncodeInvertsDecode : Prop :=
  ∀ (f : Frame) (i : Instr), decode f = .ok i → encode i = some f ∧ i.wellFormed = true

/-- R69: byte 1 selects the operation, exactly on all 8 bits; a frame without byte 1 selects none (R152). -/
def Obligations.FunctionCodeSelectsOperation : Prop :=
  (∀ f : Frame, f.length < 2 ↔ ∃ e, decode f = .error e) ∧
  ∀ (u fc : Byte) (body : List Byte),
    (fc = 0x03#8 ↔ ∃ req, decode (u :: fc :: body) = .ok (.readHoldingRegisters u req)) ∧
    (fc = 0x10#8 ↔ ∃ req, decode (u :: fc :: body) = .ok (.writeMultipleRegisters u req)) ∧
    (fc ≠ 0x03#8 ∧ fc ≠ 0x10#8 ↔ decode (u :: fc :: body) = .ok (.illegalFunction u fc body))

/-- Words written out from the spec's encodings (V-D11, V-W11, V-D22 of 95_test_vectors.md) decode to what they stand for. -/
def Obligations.SpecFramesDecode : Prop :=
  decode [0x01, 0x03, 0x00, 0x00, 0x00, 0x02, 0xC4, 0x0B]
      = .ok (.readHoldingRegisters 0x01 (.complete 0 2 [] 0x0BC4)) ∧
  decode [0x01, 0x10, 0x00, 0x00, 0x00, 0x01, 0x02, 0x00, 0x05, 0xFF, 0x93, 0x6A]
      = .ok (.writeMultipleRegisters 0x01 (.complete 0 1 2 [5] (some 0xFF) 0x6A93)) ∧
  decode [0x01, 0x06] = .ok (.illegalFunction 0x01 0x06 [])

/-! ## Checksum Engine -/

/-- R100, R101, R102: the checksum of no bytes is 0xFFFF; one more byte is XORed into the low byte and eight bit steps
follow, each a logical right shift, with 0xA001 XORed in where bit 0 was set. The operation has no encoding, always
completes, and changes only the working register (and the model's own `result`, entry 6). -/
def Obligations.CrcComputeFollowsByteAndBitSteps : Prop :=
  ∀ (s : State), (∀ bytes : List Byte, encode (.crcCompute bytes) = none) ∧
    exec (.crcCompute []) s = .next { s with crc := 0xFFFF#16, result := some (.checksum 0xFFFF#16) } ∧
    exec (.crcCompute [0x01, 0x03, 0x00, 0x00, 0x00, 0x0A]) s
      = .next { s with crc := 0xCDC5#16, result := some (.checksum 0xCDC5#16) } ∧
    ∀ (bytes : List Byte) (b : Byte), ∃ c d : Word,
      exec (.crcCompute bytes) s = .next { s with crc := c, result := some (.checksum c) } ∧
      exec (.crcCompute (bytes ++ [b])) s = .next { s with crc := d, result := some (.checksum d) } ∧
      d = (fun x : Word => if x &&& 1#16 = 1#16 then (x >>> 1) ^^^ 0xA001#16 else x >>> 1)^[8] (c ^^^ b.setWidth 16)

/-- R103: validate answers whether the checksum that CRC_COMPUTE gives for the same bytes equals the expected one. The
answer stands in the model's own `result` (entry 6), and the checksum stays in the working register (entry 4). -/
def Obligations.CrcValidateComparesComputed : Prop :=
  ∀ (bytes : List Byte) (expected : Word) (s : State), ∃ c : Word,
    exec (.crcCompute bytes) s = .next { s with crc := c, result := some (.checksum c) } ∧
    exec (.crcValidate bytes expected) s = .next { s with crc := c, result := some (.verdict (decide (c = expected))) }

/-- R105, a property the spec marks as general knowledge: a byte sequence with its checksum appended has checksum 0. -/
def Obligations.SealedBytesHaveZeroResidue : Prop :=
  ∀ m : List Byte, crc16 (m ++ [loByte (crc16 m), hiByte (crc16 m)]) = 0#16

/-- R30, R104: the working register keeps nothing from one operation to the next. Two states that differ in it alone are
taken by a step to states that differ in it at most, and by an instruction likewise. -/
def Obligations.CrcRegisterIsNeverRead : Prop :=
  ∀ (s : State) (c : Word),
    mapNext (State.withCrc 0#16) (step (s.withCrc c)) = mapNext (State.withCrc 0#16) (step s) ∧
    ∀ i : Instr, mapNext (State.withCrc 0#16) (exec i (s.withCrc c)) = mapNext (State.withCrc 0#16) (exec i s)

/-! ## PDU Codec -/

/-- R121: with every value inside its width, Encode gives `[u, fn]`, the fields in order, each 2-byte one high byte first,
and the checksum of all of these, low byte first; the length is `2 + Σ width + 2`. -/
def Obligations.PduEncodeEmitsFieldsAndChecksum : Prop :=
  ∀ (u fn : Byte) (fields : List FieldSpec) (s : State),
    (∀ x ∈ fields, (∀ v, x = .b1 v → v ≤ 255) ∧ (∀ v, x = .w2 v → v ≤ 65535)) →
    ∃ out : List Byte,
      out = u :: fn :: fields.flatMap wireBytes ∧
      (out ++ [loByte (crc16 out), hiByte (crc16 out)]).length = 2 + layoutBytes (fields.map fieldWidth) + 2 ∧
      exec (.pduEncode u fn fields) s
        = .next { s with crc := crc16 out, result := some (.encoded (out ++ [loByte (crc16 out), hiByte (crc16 out)])) }

/-- R122, R206: a value outside its width makes Encode fault with FieldOverflow; no bytes are emitted, no register
changes, and FAULTED is set (entry 14). -/
def Obligations.PduEncodeFaultsOnOverflow : Prop :=
  ∀ (u fn : Byte) (fields : List FieldSpec) (s : State),
    (∃ v, (FieldSpec.b1 v ∈ fields ∧ 255 < v) ∨ (FieldSpec.w2 v ∈ fields ∧ 65535 < v)) →
    exec (.pduEncode u fn fields) s = .next (s.afterFault .fieldOverflow s.crc)

/-- R124, R126, R127: on a frame long enough, Decode answers None exactly where the checksum of all bytes but the last two
is not `f[n-2] | f[n-1] << 8`; else bytes 0 and 1 and, for each layout entry in order, the byte or big-endian word that
stands where the entries before it end. -/
def Obligations.PduDecodeChecksThenWalks : Prop :=
  ∀ (f : Frame) (layout : List Width) (s : State), 2 + layoutBytes layout + 2 ≤ f.length →
    ∃ fields : List Nat,
      fields.length = layout.length ∧
      (∀ (j : Nat) (w : Width), layout[j]? = some w →
        fields[j]? = some (
          if w = .one then (f.getD (2 + layoutBytes (layout.take j)) 0#8).toNat
          else 256 * (f.getD (2 + layoutBytes (layout.take j)) 0#8).toNat
              + (f.getD (2 + layoutBytes (layout.take j) + 1) 0#8).toNat)) ∧
      exec (.pduDecode f layout) s
        = .next { s with
            crc := crc16 (f.take (f.length - 2))
            result := some (.decoded
              (if (crc16 (f.take (f.length - 2))).toNat
                  = (f.getD (f.length - 2) 0#8).toNat + 256 * (f.getD (f.length - 1) 0#8).toNat
               then some { unitId := f.getD 0 0#8, functionId := f.getD 1 0#8, fields := fields } else none)) }

/-- R125: on a frame shorter than `4 + Σ layout` Decode faults with FrameTooShort, whatever its checksum (entry 14). -/
def Obligations.PduDecodeFaultsOnShortFrame : Prop :=
  ∀ (f : Frame) (layout : List Width) (s : State), f.length < 4 + layoutBytes layout →
    exec (.pduDecode f layout) s = .next (s.afterFault .frameTooShort s.crc)

/-- R128: PDU_DECODE of the frame PDU_ENCODE answered, with the matching layout, gives back the unit id, the function code
and the flattened values. -/
def Obligations.DecodeOfEncodeRoundTrip : Prop :=
  ∀ (u fn : Byte) (fields : List FieldSpec) (s : State), (∀ x ∈ fields, fieldFits x = true) →
    ∃ (f : Frame) (t t' : State),
      exec (.pduEncode u fn fields) s = .next t ∧ t.result = some (.encoded f) ∧
      exec (.pduDecode f (fields.map fieldWidth)) t = .next t' ∧
      t'.result = some (.decoded (some { unitId := u, functionId := fn, fields := fields.map fieldValue }))

/-- R127: bytes after the last layout field and before the checksum are checksum input and are not decoded. -/
def Obligations.SurplusBytesAreNotDecoded : Prop :=
  ∀ (u fn : Byte) (fields : List FieldSpec) (bytes surplus : List Byte) (s : State),
    fieldsBytes fields = some bytes →
    exec (.pduDecode (sealFrame ([u, fn] ++ bytes ++ surplus)) (fields.map fieldWidth)) s
      = .next { s with
          crc := crc16 ([u, fn] ++ bytes ++ surplus)
          result := some (.decoded (some { unitId := u, functionId := fn, fields := fields.map fieldValue })) }

/-! ## Read Holding Registers -/

/-- R154, R62, R46: a read of a valid range of at most 127 registers, with the right checksum, is answered with
`[u, 0x03, 2q]`, the registers in ascending order, each high byte first, and the checksum: `5 + 2q` bytes. Bytes past byte
5 change nothing (R127). No register changes. -/
def Obligations.ReadAnswersWithRegisters : Prop :=
  ∀ (u : Byte) (start quantity : Word) (surplus : List Byte) (crcRx : Word) (s : State),
    crcRx = crc16 (readInput u start quantity surplus) →
    start.toNat + quantity.toNat ≤ 1000 → quantity.toNat ≤ 127 →
    ∃ body : List Byte,
      body = [u, 0x03#8, BitVec.ofNat 8 (2 * quantity.toNat)] ++ registerBytes s.bank start.toNat quantity.toNat ∧
      body.length + 2 = 5 + 2 * quantity.toNat ∧
      exec (.readHoldingRegisters u (.complete start quantity surplus crcRx)) s = .next (s.afterResponse body)

/-- R156: a read of 128 registers or more with a valid range ends in Fault(FieldOverflow), with no response and the bank
unchanged; only 0 to 127 registers give a success response. -/
def Obligations.ReadOfTooManyRegistersFaults : Prop :=
  ∀ (u : Byte) (start quantity : Word) (surplus : List Byte) (crcRx : Word) (s : State),
    crcRx = crc16 (readInput u start quantity surplus) → start.toNat + quantity.toNat ≤ 1000 →
    (128 ≤ quantity.toNat →
      exec (.readHoldingRegisters u (.complete start quantity surplus crcRx)) s
        = .next (s.afterFault .fieldOverflow crcRx)) ∧
    ∀ (t : State) (r : Frame),
      exec (.readHoldingRegisters u (.complete start quantity surplus crcRx)) s = .next t →
      t.result = some (.respond r) → r.getD 1 0#8 = 0x03#8 ∧ quantity.toNat ≤ 127

/-! ## Write Multiple Registers -/

/-- R160, R163, R164: a write that passes its checks puts value i into register `start + i`, for i in order, emits one
Save with the whole bank after the writes, then the 8-byte response that echoes start and quantity. No other register
changes. A surplus odd byte changes nothing (R161). -/
def Obligations.WriteStoresSavesAndEchoes : Prop :=
  ∀ (u : Byte) (start quantity : Word) (bc : Byte) (values : List Word) (odd : Option Byte) (crcRx : Word) (s : State),
    crcRx = crc16 (writeInput u start quantity bc values odd) →
    start.toNat + quantity.toNat ≤ 1000 → bc.toNat = 2 * quantity.toNat → values.length = quantity.toNat →
    ∃ b : Bank,
      (∀ i (h : i < 1000), b[i] =
        if start.toNat ≤ i ∧ i < start.toNat + quantity.toNat then values.getD (i - start.toNat) 0#16 else s.bank[i]) ∧
      exec (.writeMultipleRegisters u (.complete start quantity bc values odd crcRx)) s
        = .next (({ s with bank := b, events := s.events ++ [.save b] } : State).afterResponse
            ([u, 0x10#8] ++ beBytes start ++ beBytes quantity))

/-- R203: with a valid checksum and range, a byteCount that is not twice the quantity, or a number of value words that is
not the quantity, gives IllegalDataValue(3): `[u, 0x90, 3]` and the checksum; the bank is unchanged and nothing is saved. -/
def Obligations.WriteWithWrongCountsGetsIllegalDataValue : Prop :=
  ∀ (u : Byte) (start quantity : Word) (bc : Byte) (values : List Word) (odd : Option Byte) (crcRx : Word) (s : State),
    crcRx = crc16 (writeInput u start quantity bc values odd) →
    start.toNat + quantity.toNat ≤ 1000 → (bc.toNat ≠ 2 * quantity.toNat ∨ values.length ≠ quantity.toNat) →
    exec (.writeMultipleRegisters u (.complete start quantity bc values odd crcRx)) s
      = .next (s.afterResponse [u, 0x90#8, 3#8])

/-- R161: a 0x10 frame with a valid checksum and range and byteCount = 2q is written exactly when its length is `9 + 2q` or
`10 + 2q`. -/
def Obligations.WriteSucceedsExactlyOnMatchingLength : Prop :=
  ∀ (u : Byte) (start quantity : Word) (bc : Byte) (values : List Word) (odd : Option Byte) (crcRx : Word) (s t : State),
    crcRx = crc16 (writeInput u start quantity bc values odd) →
    start.toNat + quantity.toNat ≤ 1000 → bc.toNat = 2 * quantity.toNat →
    exec (.writeMultipleRegisters u (.complete start quantity bc values odd crcRx)) s = .next t →
    ((∃ r, t.result = some (.respond r) ∧ r.getD 1 0#8 = 0x10#8) ↔
      (writeFrame u (.complete start quantity bc values odd crcRx)).length = 9 + 2 * quantity.toNat ∨
      (writeFrame u (.complete start quantity bc values odd crcRx)).length = 10 + 2 * quantity.toNat)

/-- R162: every 0x10 request for 128 registers or more that passes the checksum and range checks gets
IllegalDataValue(3). -/
def Obligations.LargeWriteGetsIllegalDataValue : Prop :=
  ∀ (u : Byte) (start quantity : Word) (bc : Byte) (values : List Word) (odd : Option Byte) (s : State),
    start.toNat + quantity.toNat ≤ 1000 → 128 ≤ quantity.toNat →
    exec (.writeMultipleRegisters u
        (.complete start quantity bc values odd (crc16 (writeInput u start quantity bc values odd)))) s
      = .next (s.afterResponse [u, 0x90#8, 3#8])

/-- R48: a write that succeeded, run again, leaves the bank as it is, answers the same frame, and emits its own Save and
response. -/
def Obligations.RepeatedWriteIsIdempotent : Prop :=
  ∀ (u : Byte) (req : WriteRequest) (s t : State) (r : Frame),
    exec (.writeMultipleRegisters u req) s = .next t → t.result = some (.respond r) → r.getD 1 0#8 = 0x10#8 →
    exec (.writeMultipleRegisters u req) t
      = .next { t with events := t.events ++ [.save t.bank, .respond (t.captured.map Request.requester) r] }

/-! ## Exceptions -/

/-- R202, R155: with a valid checksum, a range that passes 999, `start + quantity - 1 > 999` over the integers, gives
IllegalDataAddress(2) to a read and to a write, whatever its other fields. -/
def Obligations.RangePastBankGetsIllegalDataAddress : Prop :=
  ∀ (u : Byte) (start quantity : Word) (surplus : List Byte) (bc : Byte) (values : List Word) (odd : Option Byte)
    (s : State), (start.toNat : Int) + quantity.toNat - 1 > 999 →
    exec (.readHoldingRegisters u
        (.complete start quantity surplus (crc16 (readInput u start quantity surplus)))) s
      = .next (s.afterResponse [u, 0x83#8, 2#8]) ∧
    exec (.writeMultipleRegisters u
        (.complete start quantity bc values odd (crc16 (writeInput u start quantity bc values odd)))) s
      = .next (s.afterResponse [u, 0x90#8, 2#8])

/-- R204, R175: a 0x03 or 0x10 frame long enough for its function whose checksum is wrong is answered with
ChecksumFailure(4), whatever its other fields; no register changes. -/
def Obligations.WrongChecksumGetsChecksumFailure : Prop :=
  ∀ (u : Byte) (start quantity crcRx : Word) (surplus : List Byte) (bc : Byte) (values : List Word)
    (odd : Option Byte) (s : State),
    (crcRx ≠ crc16 (readInput u start quantity surplus) →
      exec (.readHoldingRegisters u (.complete start quantity surplus crcRx)) s
        = .next (s.afterResponse [u, 0x83#8, 4#8])) ∧
    (crcRx ≠ crc16 (writeInput u start quantity bc values odd) →
      exec (.writeMultipleRegisters u (.complete start quantity bc values odd crcRx)) s
        = .next (s.afterResponse [u, 0x90#8, 4#8]))

/-- R170, R201, R70: every other function code is answered with IllegalFunction(1) from bytes 0 and 1, the function code
with bit 7 set; the rest of the frame is not read and no checksum is tested. -/
def Obligations.OtherFunctionGetsIllegalFunction : Prop :=
  ∀ (u fc : Byte) (rest : List Byte) (s : State),
    exec (.illegalFunction u fc rest) s = .next (s.afterResponse [u, fc ||| 0x80#8, 1#8])

/-- R154, R160, R206: a 0x03 frame under 8 bytes and a 0x10 frame under 9 decode to an instruction that faults with
FrameTooShort, whatever they hold; no checksum is computed. -/
def Obligations.ShortRequestFaults : Prop :=
  ∀ (u fc : Byte) (body : List Byte) (s : State),
    (fc = 0x03#8 ∧ (u :: fc :: body).length < 8 ∨ fc = 0x10#8 ∧ (u :: fc :: body).length < 9) →
    ∃ i : Instr, decode (u :: fc :: body) = .ok i ∧ exec i s = .next (s.afterFault .frameTooShort s.crc)

/-- R208: an operation that ends in a wire exception emits the exception frame and nothing else, and leaves every register
and every mark as it was. -/
def Obligations.ExceptionsArePrecise : Prop :=
  ∀ (i : Instr) (f : Frame) (s t : State) (r : Frame), encode i = some f → exec i s = .next t →
    t.result = some (.respond r) → r.getD 1 0#8 ≠ 0x03#8 → r.getD 1 0#8 ≠ 0x10#8 →
    ∃ code : Byte, 1 ≤ code.toNat ∧ code.toNat ≤ 4 ∧
      t = s.afterResponse [f.getD 0 0#8, f.getD 1 0#8 ||| 0x80#8, code]

/-! ## The frame of every instruction, and progress -/

/-- Every instruction answers a next state, in every state. That a request ends in one outcome (R15) and that the checksum
operations have no exception (R100, R103) are the spec's. That a Fault outcome (R206) is a next state is the model's choice
(entry 5), as are a component operation's fault as that of a request (entry 14) and exec in a state whose FAULTED mark is
set, which only the step tests (entry 21). -/
def Obligations.EveryInstructionCompletes : Prop :=
  ∀ (i : Instr) (s : State), ∃ t : State, exec i s = .next t

/-- R21, R22, R173: only a successful Write Multiple Registers changes the bank, and then it emits the Save of the new bank
and its response; no instruction changes DEVICE_ID, the lock, the captured frame or the frames waiting, or clears
FAULTED; events are only added. -/
def Obligations.OnlySuccessfulWriteChangesBank : Prop :=
  ∀ (i : Instr) (s t : State), exec i s = .next t →
    t.deviceId = s.deviceId ∧ t.busy = s.busy ∧ t.captured = s.captured ∧ t.waiting = s.waiting ∧
    t.served = s.served ∧ (s.faulted = true → t.faulted = true) ∧ s.events <+: t.events ∧
    (t.bank ≠ s.bank → ∃ u start quantity bc values odd,
      i = .writeMultipleRegisters u
        (.complete start quantity bc values odd (crc16 (writeInput u start quantity bc values odd))) ∧
      start.toNat + quantity.toNat ≤ 1000 ∧ bc.toNat = 2 * quantity.toNat ∧ values.length = quantity.toNat ∧
      t.events = s.events ++ [.save t.bank, .respond (s.captured.map Request.requester)
        (sealFrame ([u, 0x10#8] ++ beBytes start ++ beBytes quantity))])

/-! ## The request step -/

/-- A STEP RUNS THE DECODED INSTRUCTION (R150): where FAULTED is 0 and the frame taken is for this unit and decodes to i,
the step is `exec i` in the state with the frame captured, the lock taken and the phase FunctionIdentified, and then the
frame and the lock are let go and the phase is Idle, or Faulted where the mark is set. -/
def Obligations.StepRunsDecodedInstruction : Prop :=
  ∀ (s : State) (r : Request) (rest : List Request) (i : Instr),
    s.faulted = false → selectRequest s.served s.waiting = some (r, rest) →
    r.frame.head? = some s.deviceId → decode r.frame = .ok i →
    step s = mapNext
      (fun t => { t with captured := none, busy := false, phase := if t.faulted then .faulted else .idle })
      (exec i { s with captured := some r, waiting := rest, busy := true, phase := .functionIdentified,
                       served := s.served + 1 })

/-- R151, R205: EntryCheck comes first. The empty frame faults with FrameTooShort. A frame whose byte 0 is not DEVICE_ID
is discarded, whatever follows: no response, no Save, no register changed, and the engine is Idle again. -/
def Obligations.EntryCheckFaultsOrDiscards : Prop :=
  ∀ (s : State) (requester : Nat) (f : Frame),
    s.faulted = false → s.waiting = [{ requester := requester, frame := f }] →
    (f = [] →
      step s = .next { s with phase := .faulted, faulted := true, busy := false, captured := none, waiting := [],
                              served := s.served + 1, result := some (.fault .frameTooShort) }) ∧
    (∀ (u : Byte) (rest : List Byte), f = u :: rest → u ≠ s.deviceId →
      step s = .next { s with phase := .idle, busy := false, captured := none, waiting := [],
                              served := s.served + 1, result := some .discard })

/-- R152, R206: the 1-byte frame of this unit passes EntryCheck and faults with FrameTooShort at FunctionSelect. -/
def Obligations.OwnUnitIdAloneFaults : Prop :=
  ∀ (s : State) (requester : Nat),
    s.faulted = false → s.waiting = [{ requester := requester, frame := [s.deviceId] }] →
    step s = .next { s with phase := .faulted, faulted := true, busy := false, captured := none, waiting := [],
                            served := s.served + 1, result := some (.fault .frameTooShort) }

/-- R28, R206: a Fault outcome sets FAULTED; while it is set there is no further step. -/
def Obligations.FaultStopsTheEngine : Prop :=
  (∀ s : State, s.faulted = true → step s = .fault .engineFaulted) ∧
  ∀ (s t : State) (reason : FaultReason), s.waiting ≠ [] → step s = .next t → t.result = some (.fault reason) →
    t.faulted = true ∧ step t = .fault .engineFaulted

/-- R215 with the model's choice of entry 10: with no frame waiting, a step of the engine keeps all state. -/
def Obligations.IdleStepKeepsAllState : Prop :=
  ∀ s : State, s.faulted = false → s.waiting = [] → step s = .next s

/-- R15, R173, R163: a step that serves a request ends in exactly one outcome. Respond: one response, to the requester of a
frame that waited, with at most the Save of the bank before it. Discard: nothing is emitted and nothing changes. Fault:
nothing is emitted, no register changes, FAULTED is set. -/
def Obligations.OneOutcomePerRequest : Prop :=
  ∀ s t : State, s.waiting ≠ [] → step s = .next t → ∃ req ∈ s.waiting,
    (∃ r, t.result = some (.respond r) ∧ t.faulted = false ∧
      ((t.bank = s.bank ∧ t.events = s.events ++ [.respond (some req.requester) r]) ∨
        t.events = s.events ++ [.save t.bank, .respond (some req.requester) r])) ∨
    (t.result = some .discard ∧ t.faulted = false ∧ t.bank = s.bank ∧ t.crc = s.crc ∧ t.events = s.events) ∨
    (∃ reason, t.result = some (.fault reason) ∧ t.faulted = true ∧ t.bank = s.bank ∧ t.events = s.events)

/-- The outcome of a request is the first of the causes in the order of R207 (R153), and, where none applies, the success
response (R62, R64), written over the raw bytes of the frame (`outcomeByPriority`), for every frame, bank and unit id. At
the edges it rests on the range check at start 1000 (R155; entry 15), on the bytes past the layout (R73, R127; entry 16),
and on a Fault outcome as a next state (entry 5). -/
def Obligations.StepAnswersByPriority : Prop :=
  ∀ (s : State) (r : Request), s.faulted = false → s.waiting = [r] →
    ∃ t : State, step s = .next t ∧ t.result = some (outcomeByPriority s.deviceId s.bank r.frame)

/-- R217, R51, with the model's list of waiting frames (entry 7): the frame a step takes is one that waited; the others keep
waiting, in their order; and the outcome is that of the frame taken, as though it alone had waited. Which one is taken is
the free value of entry 7, and the statement says nothing of it. -/
def Obligations.ServedFrameIsOneThatWaited : Prop :=
  ∀ s t : State, s.waiting ≠ [] → step s = .next t → ∃ before r after,
    s.waiting = before ++ r :: after ∧ t.waiting = before ++ after ∧
    step { s with waiting := [r] } = .next { t with waiting := [] }

/-- R217: the engine sees no requester. The same frame from another connection changes nothing but the destination of the
response. -/
def Obligations.RequesterIsInvisible : Prop :=
  ∀ (s : State) (f : Frame) (a b : Nat), s.faulted = false →
    ∃ (t : State) (added : List PortEvent),
      step { s with waiting := [{ requester := a, frame := f }] } = .next { t with events := s.events ++ added } ∧
      step { s with waiting := [{ requester := b, frame := f }] }
        = .next { t with events := s.events ++ added.map (PortEvent.redirect (some b)) }

/-- R51, R47: a read sees the writes of the request before it. A write of up to 127 values, served, and then a read of the
same registers, served, are answered with the echo and with the values written. -/
def Obligations.ReadAfterWriteReturnsTheValues : Prop :=
  ∀ (s : State) (start : Word) (values : List Word) (fw fr : Frame) (a b : Nat),
    s.faulted = false → s.waiting = [] → values.length ≤ 127 → start.toNat + values.length ≤ 1000 →
    encode (asmWrite s.deviceId start values) = some fw →
    encode (asmRead s.deviceId start (BitVec.ofNat 16 values.length)) = some fr →
    ∃ t t' : State,
      step (s.deliver { requester := a, frame := fw }) = .next t ∧
      step (t.deliver { requester := b, frame := fr }) = .next t' ∧ t'.bank = t.bank ∧
      t'.events = s.events ++ [
        .save t.bank,
        .respond (some a) (sealFrame ([s.deviceId, 0x10#8] ++ beBytes start ++ beBytes (BitVec.ofNat 16 values.length))),
        .respond (some b) (sealFrame ([s.deviceId, 0x03#8, BitVec.ofNat 8 (2 * values.length)]
          ++ values.flatMap beBytes))]

/-! ## Invariants, reset and startup -/

/-- R22: "No request writes it." -/
def Obligations.StepKeepsDeviceId : Prop := ∀ s t : State, step s = .next t → t.deviceId = s.deviceId

/-- R26, R29: between requests no lock is held, no frame is captured, and the phase is Idle, or Faulted exactly where the
mark is set. -/
def Obligations.StepKeepsQuiescence : Prop := ∀ s t : State, s.Quiescent → step s = .next t → t.Quiescent

/-- R60, R171, R123: every pending response carries this unit's id and the right checksum. -/
def Obligations.StepKeepsResponsesSealed : Prop :=
  ∀ s t : State, s.ResponsesSealed → step s = .next t → t.ResponsesSealed

/-- R163, R245: the latest pending Save is always the bank as it stands: no change of the bank goes unsaved. -/
def Obligations.StepKeepsSaveCurrent : Prop :=
  ∀ s t : State, s.SaveCurrent → step s = .next t → t.SaveCurrent

/-- The three invariants hold at reset, and the model's reset is the startup, for some unit id, at which no image exists
(the model's choices of entries 1 and 2). -/
def Obligations.ResetMeetsInvariants : Prop :=
  State.reset.Quiescent ∧ State.reset.ResponsesSealed ∧ State.reset.SaveCurrent ∧
    ∃ id : Byte, State.boot id none = .next State.reset

/-- R241, R242, R31: startup sets the registers from the image, or to zero on absence, DEVICE_ID to the configured id, phase
Idle, FAULTED and BUSY 0, with no frame captured and no event pending; an image that is not 1000 values of 16 bits is
refused. -/
def Obligations.StartupLeavesResetState : Prop :=
  (∀ (id : Byte) (image : Option (List Nat)) (values : List Nat),
    values = image.getD (List.replicate 1000 0) →
    (values.length = 1000 ∧ ∀ v ∈ values, v ≤ 65535) →
    ∃ s : State, State.boot id image = .next s ∧ s.deviceId = id ∧ s.phase = .idle ∧ s.faulted = false ∧
      s.busy = false ∧ s.captured = none ∧ s.events = [] ∧
      ∀ i (h : i < 1000), values[i]? = some s.bank[i].toNat) ∧
  (∀ (id : Byte) (image : List Nat), (image.length ≠ 1000 ∨ ∃ v ∈ image, 65535 < v) →
    State.boot id (some image) = .refused .malformedImage)

/-! ## The host's framer -/

/-- R248, R72: a frame that the framer cut at the length of its function code, 0x03 or 0x10, never faults as too short,
whatever it holds. -/
def Obligations.CorrectlyFramedIsNeverTooShort : Prop :=
  ∀ (s t : State) (r : Request), s.waiting = [r] → correctlyFramed r.frame →
    (r.frame.getD 1 0#8 = 0x03#8 ∨ r.frame.getD 1 0#8 = 0x10#8) → step s = .next t →
    t.result ≠ some (.fault .frameTooShort)

/-- R161: for a correctly framed 0x10 request with an even byteCount, step 3 (byteCount = 2 x quantity) and step 4 (value
count = quantity) agree; with an odd byteCount step 3 fails. -/
def Obligations.FramedWriteChecksAgree : Prop :=
  ∀ (u : Byte) (start quantity : Word) (bc : Byte) (values : List Word) (odd : Option Byte) (crcRx : Word),
    correctlyFramed (writeFrame u (.complete start quantity bc values odd crcRx)) →
    (bc.toNat % 2 = 0 → (bc.toNat = 2 * quantity.toNat ↔ values.length = quantity.toNat)) ∧
    (bc.toNat % 2 = 1 → bc.toNat ≠ 2 * quantity.toNat)
end

