-- ==== Sys2Proof/Laws/Bank.lean ====
section
/-! SUPPORT. What reading and writing registers does (00_scope.md R16, 20_memory.md R46, R56). -/

namespace Sys2Proof.Machine

theorem readReg_eq_getElem (b : Bank) (i : Nat) (h : i < 1000) : readReg b i = b[i] := by
  simp [readReg, Vector.getD, h]

theorem readReg_writeReg (b : Bank) (i j : Nat) (v : Word) :
    readReg (writeReg b i v) j = if i = j ∧ j < 1000 then v else readReg b j := by
  by_cases hj : j < 1000
  · rw [readReg_eq_getElem _ _ hj, readReg_eq_getElem _ _ hj]
    simp [writeReg, Vector.getElem_setIfInBounds, hj]
  · simp [readReg, Vector.getD, hj]

/-- Two banks that read alike are equal. -/
theorem bank_ext {b b' : Bank} (h : ∀ i, readReg b i = readReg b' i) : b = b' := by
  apply Vector.ext
  intro i hi
  simpa [readReg_eq_getElem _ _ hi] using h i

/-- Everything a run of writes does: register `a + k` holds value k, and no other register changes (R163). -/
theorem readReg_memWrite (vs : List Word) (b : Bank) (a i : Nat) :
    readReg (memWrite b a vs) i =
      if a ≤ i ∧ i < a + vs.length ∧ i < 1000 then vs.getD (i - a) 0#16 else readReg b i := by
  induction vs generalizing b a with
  | nil =>
    have h : ¬ (a ≤ i ∧ i < a + ([] : List Word).length ∧ i < 1000) := by simp; omega
    rw [memWrite, if_neg h]
  | cons v vs ih =>
    rw [memWrite, ih, readReg_writeReg]
    by_cases h : a = i
    · subst h
      by_cases h' : a < 1000 <;> simp [h']
    · by_cases h1 : a + 1 ≤ i
      · have e : i - a = (i - (a + 1)) + 1 := by omega
        have l : (i < a + 1 + vs.length ∧ i < 1000) ↔ (i < a + (vs.length + 1) ∧ i < 1000) := by omega
        have ha : a ≤ i := by omega
        simp [e, h, h1, l, ha]
      · have ha : ¬ a ≤ i := by omega
        simp [h, h1, ha]

@[simp] theorem memWrite_nil (b : Bank) (a : Nat) : memWrite b a [] = b := rfl

/-- The same writes twice are the writes once (R48). -/
theorem memWrite_memWrite (vs : List Word) (b : Bank) (a : Nat) :
    memWrite (memWrite b a vs) a vs = memWrite b a vs := by
  apply bank_ext
  intro i
  simp only [readReg_memWrite]
  split <;> rfl

@[simp] theorem memRead_length (b : Bank) (a n : Nat) : (memRead b a n).length = n := by simp [memRead]

/-- A read of the registers just written gives the values (R51). -/
theorem memRead_memWrite (vs : List Word) (b : Bank) (a : Nat) (h : a + vs.length ≤ 1000) :
    memRead (memWrite b a vs) a vs.length = vs := by
  apply List.ext_getElem (by simp)
  intro k h1 h2
  have hk : a + k < 1000 := by omega
  simp [memRead, readReg_memWrite, h2, hk]

end Sys2Proof.Machine
end

