-- ==== Sys2Proof/Laws/Codec.lean ====
section
/-! SUPPORT. What the PDU Codec does (42_pdu_codec.md): when Encode answers, and Decode on a frame with its checksum
appended. -/

namespace Sys2Proof.Machine

@[simp] theorem fieldBytes_b1 (v : Nat) (h : v ≤ 255) : fieldBytes (.b1 v) = some [BitVec.ofNat 8 v] := by
  simp [fieldBytes, fieldFits, h]

@[simp] theorem fieldBytes_w2 (v : Nat) (h : v ≤ 65535) :
    fieldBytes (.w2 v) = some (beBytes (BitVec.ofNat 16 v)) := by
  simp [fieldBytes, fieldFits, h]

theorem fieldBytes_b1_eq_some {v : Nat} {a : List Byte} (h : fieldBytes (.b1 v) = some a) :
    v ≤ 255 ∧ a = [BitVec.ofNat 8 v] := by
  by_cases hv : v ≤ 255
  · rw [fieldBytes_b1 v hv, Option.some.injEq] at h
    exact ⟨hv, h.symm⟩
  · simp [fieldBytes, fieldFits, hv] at h

theorem fieldBytes_w2_eq_some {v : Nat} {a : List Byte} (h : fieldBytes (.w2 v) = some a) :
    v ≤ 65535 ∧ a = beBytes (BitVec.ofNat 16 v) := by
  by_cases hv : v ≤ 65535
  · rw [fieldBytes_w2 v hv, Option.some.injEq] at h
    exact ⟨hv, h.symm⟩
  · simp [fieldBytes, fieldFits, hv] at h

theorem fieldBytes_isSome (x : FieldSpec) : (fieldBytes x).isSome = fieldFits x := by
  cases x <;> simp only [fieldBytes] <;> split <;> simp_all

theorem fieldBytes_length {x : FieldSpec} {bs : List Byte} (h : fieldBytes x = some bs) :
    bs.length = widthBytes (fieldWidth x) := by
  cases x <;> simp only [fieldBytes] at h <;> split at h <;> simp at h <;> subst h <;> rfl

/-- The fields are encoded exactly where every one fits its width (R121, R122). -/
theorem fieldsBytes_isSome (xs : List FieldSpec) : (fieldsBytes xs).isSome = xs.all fieldFits := by
  induction xs with
  | nil => rfl
  | cons x xs ih =>
    rw [List.all_cons, ← ih, ← fieldBytes_isSome]
    simp only [fieldsBytes]
    cases fieldBytes x <;> cases fieldsBytes xs <;> rfl

theorem fieldsBytes_cons_of_some {x : FieldSpec} {xs : List FieldSpec} {a b : List Byte}
    (ha : fieldBytes x = some a) (hb : fieldsBytes xs = some b) : fieldsBytes (x :: xs) = some (a ++ b) := by
  simp [fieldsBytes, ha, hb]

/-- The bytes of a run of words, high byte first. -/
theorem fieldsBytes_words (ws : List Word) :
    fieldsBytes (ws.map fun w => .w2 w.toNat) = some (ws.flatMap beBytes) := by
  induction ws with
  | nil => rfl
  | cons w ws ih =>
    rw [List.map_cons, fieldsBytes_cons_of_some (fieldBytes_w2 _ (by have := w.isLt; omega)) ih]
    simp

theorem fieldsBytes_length {xs : List FieldSpec} {bs : List Byte} (h : fieldsBytes xs = some bs) :
    bs.length = layoutBytes (xs.map fieldWidth) := by
  induction xs generalizing bs with
  | nil => simp only [fieldsBytes, Option.some.injEq] at h; subst h; rfl
  | cons x xs ih =>
    simp only [fieldsBytes] at h
    split at h
    · rename_i a b ha hb
      simp only [Option.some.injEq] at h
      subst h
      simp [layoutBytes, fieldBytes_length ha, ih hb]
    · simp at h

/-- The layout walk reads back each field's value, wherever the run of fields stands in the frame (R66, R128). -/
theorem walkFields_fieldsBytes {xs : List FieldSpec} {bs : List Byte} (h : fieldsBytes xs = some bs)
    (pre rest : List Byte) :
    walkFields (pre ++ bs ++ rest) pre.length (xs.map fieldWidth) = xs.map fieldValue := by
  induction xs generalizing bs pre with
  | nil => rfl
  | cons x xs ih =>
    simp only [fieldsBytes] at h
    split at h
    · rename_i a b ha hb
      simp only [Option.some.injEq] at h
      subst h
      have key := ih hb (pre ++ a)
      cases x with
      | b1 v =>
        obtain ⟨hv, rfl⟩ := fieldBytes_b1_eq_some ha
        have hv : v < 256 := by omega
        simp only [List.length_append, List.length_singleton, List.append_assoc, List.nil_append,
          List.cons_append] at key
        simp [walkFields, fieldWidth, fieldValue, key, Nat.mod_eq_of_lt hv]
      | w2 v =>
        obtain ⟨hv, rfl⟩ := fieldBytes_w2_eq_some ha
        have hv : v < 65536 := by omega
        simp only [List.length_append, beBytes_length, List.append_assoc] at key
        simp [beBytes] at key
        simp [walkFields, fieldWidth, fieldValue, beBytes, key, hv]
    · simp at h

theorem pduEncode_ok {u fn : Byte} {fields : List FieldSpec} {bs : List Byte} (h : fieldsBytes fields = some bs) :
    pduEncode u fn fields = .ok (sealFrame (u :: fn :: bs)) := by
  simp [pduEncode, encodeBody, h]

theorem afterEncode_ok {u fn : Byte} {fields : List FieldSpec} {bs : List Byte} (h : fieldsBytes fields = some bs)
    (s : State) : afterEncode u fn fields s = runCompute (u :: fn :: bs) s := by
  simp [afterEncode, encodeBody, h]

theorem pduEncode_error {u fn : Byte} {fields : List FieldSpec} (h : fieldsBytes fields = none) :
    pduEncode u fn fields = .error .fieldOverflow := by
  simp [pduEncode, encodeBody, h]

theorem afterEncode_error {u fn : Byte} {fields : List FieldSpec} (h : fieldsBytes fields = none) (s : State) :
    afterEncode u fn fields s = s := by
  simp [afterEncode, encodeBody, h]

@[simp] theorem coveredBytes_append_leBytes (out : List Byte) (c : Word) : coveredBytes (out ++ leBytes c) = out := by
  simp [coveredBytes]

@[simp] theorem receivedCrc_append_leBytes (out : List Byte) (c : Word) : receivedCrc (out ++ leBytes c) = c := by
  simp [receivedCrc, leBytes]

/-- Everything Decode does with a frame written as its checksum input and a checksum (R124, R125, R126). -/
theorem pduDecode_append_leBytes (u fn : Byte) (body : List Byte) (c : Word) (layout : List Width) :
    pduDecode (u :: fn :: body ++ leBytes c) layout =
      if layoutBytes layout ≤ body.length then
        .ok (if crc16 (u :: fn :: body) = c then
          some { unitId := u, functionId := fn, fields := walkFields (u :: fn :: body ++ leBytes c) 2 layout }
        else none)
      else .error .frameTooShort := by
  have hl : fitsLayout (u :: fn :: body ++ leBytes c) layout = decide (layoutBytes layout ≤ body.length) := by
    simp only [fitsLayout, List.length_append, List.length_cons, leBytes_length, decide_eq_decide]
    omega
  rw [pduDecode, hl, receivedCrc_append_leBytes, coveredBytes_append_leBytes]
  by_cases h : layoutBytes layout ≤ body.length <;> by_cases h2 : crc16 (u :: fn :: body) = c <;> simp [h, h2]

theorem afterDecode_append_leBytes (u fn : Byte) (body : List Byte) (c : Word) (layout : List Width)
    (h : layoutBytes layout ≤ body.length) (s : State) :
    afterDecode (u :: fn :: body ++ leBytes c) layout s = runCompute (u :: fn :: body) s := by
  have hl : fitsLayout (u :: fn :: body ++ leBytes c) layout = true := by
    simp only [fitsLayout, List.length_append, List.length_cons, leBytes_length, decide_eq_true_eq]
    omega
  rw [afterDecode, hl, coveredBytes_append_leBytes]
  rfl

end Sys2Proof.Machine
end

