-- ==== Sys2Proof/Laws/Frames.lean ====
section
/-! SUPPORT. What the parts of the decoder and the encoder do: the checksum split, the run of values, frame lengths. -/

namespace Sys2Proof

open Machine

theorem splitCrc_append_leBytes (data : List Byte) (c : Word) : splitCrc (data ++ leBytes c) = some (data, c) := by
  induction data with
  | nil => simp [leBytes, splitCrc]
  | cons b data ih =>
    cases data with
    | nil => simp [leBytes, splitCrc]
    | cons d rest =>
      cases rest with
      | nil => simp [leBytes, splitCrc] at ih ⊢
      | cons e rest =>
        simp only [List.cons_append] at ih ⊢
        rw [splitCrc, ih]

theorem eq_append_of_splitCrc_eq_some {l data : List Byte} {c : Word} (h : splitCrc l = some (data, c)) :
    l = data ++ leBytes c := by
  induction l using splitCrc.induct generalizing data with
  | case1 => simp [splitCrc] at h
  | case2 => simp [splitCrc] at h
  | case3 lo hi =>
    simp only [splitCrc, Option.some.injEq, Prod.mk.injEq] at h
    obtain ⟨rfl, rfl⟩ := h
    simp [leBytes]
  | case4 b x y rest d k hk ih =>
    simp only [splitCrc, hk, Option.some.injEq, Prod.mk.injEq] at h
    obtain ⟨rfl, rfl⟩ := h
    rw [ih hk, List.cons_append]
  | case5 b x y rest hk _ => simp [splitCrc, hk] at h

theorem length_lt_of_splitCrc_eq_none {l : List Byte} (h : splitCrc l = none) : l.length < 2 := by
  induction l using splitCrc.induct with
  | case1 => simp
  | case2 => simp
  | case3 lo hi => simp [splitCrc] at h
  | case4 b x y rest d k hk _ => simp [splitCrc, hk] at h
  | case5 b x y rest hk ih => exact absurd (ih hk) (by simp)

theorem splitValues_flatMap_append (values : List Word) (odd : Option Byte) :
    splitValues (values.flatMap beBytes ++ odd.toList) = (values, odd) := by
  induction values with
  | nil => cases odd <;> simp [splitValues]
  | cons w ws ih =>
    have h : (w :: ws).flatMap beBytes ++ odd.toList = hiByte w :: loByte w :: (ws.flatMap beBytes ++ odd.toList) := by
      simp [beBytes]
    rw [h, splitValues, ih, wordOf_hiByte_loByte]

theorem eq_of_splitValues (l : List Byte) :
    l = (splitValues l).1.flatMap beBytes ++ (splitValues l).2.toList := by
  induction l using splitValues.induct with
  | case1 => rfl
  | case2 b => rfl
  | case3 hi lo rest ih =>
    have h : beBytes (wordOf hi lo) = [hi, lo] := by simp [beBytes]
    rw [splitValues, List.flatMap_cons, h, List.append_assoc, ← ih]
    rfl

@[simp] theorem readFrame_complete_length (u : Byte) (start quantity : Word) (surplus : List Byte) (c : Word) :
    (readFrame u (.complete start quantity surplus c)).length = 8 + surplus.length := by
  simp [readFrame, encodeRead]; omega

@[simp] theorem readFrame_short_length (u : Byte) (body : List Byte) :
    (readFrame u (.short body)).length = 2 + body.length := by
  simp [readFrame, encodeRead]; omega

@[simp] theorem writeFrame_complete_length (u : Byte) (start quantity : Word) (bc : Byte) (values : List Word)
    (odd : Option Byte) (c : Word) :
    (writeFrame u (.complete start quantity bc values odd c)).length
      = 9 + 2 * values.length + odd.toList.length := by
  simp [writeFrame, encodeWrite]; omega

@[simp] theorem writeFrame_short_length (u : Byte) (body : List Byte) :
    (writeFrame u (.short body)).length = 2 + body.length := by
  simp [writeFrame, encodeWrite]; omega

theorem option_toList_length_le_one (odd : Option Byte) : odd.toList.length ≤ 1 := by
  cases odd <;> simp

end Sys2Proof
end

