-- ==== Sys2Proof/Laws/State.lean ====
section
/-! SUPPORT. One lemma per field per named update of State, so that no later proof unfolds a record update. -/

namespace Sys2Proof.Machine

/-! `State.toPhase`: the phase alone. -/

@[simp] theorem toPhase_bank (p : Phase) (s : State) : (s.toPhase p).bank = s.bank := rfl
@[simp] theorem toPhase_deviceId (p : Phase) (s : State) : (s.toPhase p).deviceId = s.deviceId := rfl
@[simp] theorem toPhase_phase (p : Phase) (s : State) : (s.toPhase p).phase = p := rfl
@[simp] theorem toPhase_faulted (p : Phase) (s : State) : (s.toPhase p).faulted = s.faulted := rfl
@[simp] theorem toPhase_busy (p : Phase) (s : State) : (s.toPhase p).busy = s.busy := rfl
@[simp] theorem toPhase_crc (p : Phase) (s : State) : (s.toPhase p).crc = s.crc := rfl
@[simp] theorem toPhase_captured (p : Phase) (s : State) : (s.toPhase p).captured = s.captured := rfl
@[simp] theorem toPhase_waiting (p : Phase) (s : State) : (s.toPhase p).waiting = s.waiting := rfl
@[simp] theorem toPhase_events (p : Phase) (s : State) : (s.toPhase p).events = s.events := rfl
@[simp] theorem toPhase_served (p : Phase) (s : State) : (s.toPhase p).served = s.served := rfl
@[simp] theorem toPhase_result (p : Phase) (s : State) : (s.toPhase p).result = s.result := rfl

/-! `State.withCrc`: the CRC working register alone. -/

@[simp] theorem withCrc_bank (c : Word) (s : State) : (s.withCrc c).bank = s.bank := rfl
@[simp] theorem withCrc_deviceId (c : Word) (s : State) : (s.withCrc c).deviceId = s.deviceId := rfl
@[simp] theorem withCrc_phase (c : Word) (s : State) : (s.withCrc c).phase = s.phase := rfl
@[simp] theorem withCrc_faulted (c : Word) (s : State) : (s.withCrc c).faulted = s.faulted := rfl
@[simp] theorem withCrc_busy (c : Word) (s : State) : (s.withCrc c).busy = s.busy := rfl
@[simp] theorem withCrc_crc (c : Word) (s : State) : (s.withCrc c).crc = c := rfl
@[simp] theorem withCrc_captured (c : Word) (s : State) : (s.withCrc c).captured = s.captured := rfl
@[simp] theorem withCrc_waiting (c : Word) (s : State) : (s.withCrc c).waiting = s.waiting := rfl
@[simp] theorem withCrc_events (c : Word) (s : State) : (s.withCrc c).events = s.events := rfl
@[simp] theorem withCrc_served (c : Word) (s : State) : (s.withCrc c).served = s.served := rfl
@[simp] theorem withCrc_result (c : Word) (s : State) : (s.withCrc c).result = s.result := rfl

/-! `State.answer`: the model's `result` alone. -/

@[simp] theorem answer_bank (r : OpResult) (s : State) : (s.answer r).bank = s.bank := rfl
@[simp] theorem answer_deviceId (r : OpResult) (s : State) : (s.answer r).deviceId = s.deviceId := rfl
@[simp] theorem answer_phase (r : OpResult) (s : State) : (s.answer r).phase = s.phase := rfl
@[simp] theorem answer_faulted (r : OpResult) (s : State) : (s.answer r).faulted = s.faulted := rfl
@[simp] theorem answer_busy (r : OpResult) (s : State) : (s.answer r).busy = s.busy := rfl
@[simp] theorem answer_crc (r : OpResult) (s : State) : (s.answer r).crc = s.crc := rfl
@[simp] theorem answer_captured (r : OpResult) (s : State) : (s.answer r).captured = s.captured := rfl
@[simp] theorem answer_waiting (r : OpResult) (s : State) : (s.answer r).waiting = s.waiting := rfl
@[simp] theorem answer_events (r : OpResult) (s : State) : (s.answer r).events = s.events := rfl
@[simp] theorem answer_served (r : OpResult) (s : State) : (s.answer r).served = s.served := rfl
@[simp] theorem answer_result (r : OpResult) (s : State) : (s.answer r).result = some r := rfl

/-! `runCompute`: the CRC working register alone. -/

@[simp] theorem runCompute_bank (bytes : List Byte) (s : State) : (runCompute bytes s).bank = s.bank := rfl
@[simp] theorem runCompute_deviceId (bytes : List Byte) (s : State) : (runCompute bytes s).deviceId = s.deviceId := rfl
@[simp] theorem runCompute_phase (bytes : List Byte) (s : State) : (runCompute bytes s).phase = s.phase := rfl
@[simp] theorem runCompute_faulted (bytes : List Byte) (s : State) : (runCompute bytes s).faulted = s.faulted := rfl
@[simp] theorem runCompute_busy (bytes : List Byte) (s : State) : (runCompute bytes s).busy = s.busy := rfl
@[simp] theorem runCompute_crc (bytes : List Byte) (s : State) : (runCompute bytes s).crc = crc16 bytes := rfl
@[simp] theorem runCompute_captured (bytes : List Byte) (s : State) : (runCompute bytes s).captured = s.captured := rfl
@[simp] theorem runCompute_waiting (bytes : List Byte) (s : State) : (runCompute bytes s).waiting = s.waiting := rfl
@[simp] theorem runCompute_events (bytes : List Byte) (s : State) : (runCompute bytes s).events = s.events := rfl
@[simp] theorem runCompute_served (bytes : List Byte) (s : State) : (runCompute bytes s).served = s.served := rfl
@[simp] theorem runCompute_result (bytes : List Byte) (s : State) : (runCompute bytes s).result = s.result := rfl

/-! `raiseFault`: phase, FAULTED, result. -/

@[simp] theorem raiseFault_bank (e : FaultReason) (s : State) : (raiseFault e s).bank = s.bank := rfl
@[simp] theorem raiseFault_deviceId (e : FaultReason) (s : State) : (raiseFault e s).deviceId = s.deviceId := rfl
@[simp] theorem raiseFault_phase (e : FaultReason) (s : State) : (raiseFault e s).phase = Phase.faulted := rfl
@[simp] theorem raiseFault_faulted (e : FaultReason) (s : State) : (raiseFault e s).faulted = true := rfl
@[simp] theorem raiseFault_busy (e : FaultReason) (s : State) : (raiseFault e s).busy = s.busy := rfl
@[simp] theorem raiseFault_crc (e : FaultReason) (s : State) : (raiseFault e s).crc = s.crc := rfl
@[simp] theorem raiseFault_captured (e : FaultReason) (s : State) : (raiseFault e s).captured = s.captured := rfl
@[simp] theorem raiseFault_waiting (e : FaultReason) (s : State) : (raiseFault e s).waiting = s.waiting := rfl
@[simp] theorem raiseFault_events (e : FaultReason) (s : State) : (raiseFault e s).events = s.events := rfl
@[simp] theorem raiseFault_served (e : FaultReason) (s : State) : (raiseFault e s).served = s.served := rfl
@[simp] theorem raiseFault_result (e : FaultReason) (s : State) : (raiseFault e s).result = some (.fault e) := rfl

/-! `discardRequest`: phase, result. -/

@[simp] theorem discardRequest_bank (s : State) : (discardRequest s).bank = s.bank := rfl
@[simp] theorem discardRequest_deviceId (s : State) : (discardRequest s).deviceId = s.deviceId := rfl
@[simp] theorem discardRequest_phase (s : State) : (discardRequest s).phase = Phase.discarded := rfl
@[simp] theorem discardRequest_faulted (s : State) : (discardRequest s).faulted = s.faulted := rfl
@[simp] theorem discardRequest_busy (s : State) : (discardRequest s).busy = s.busy := rfl
@[simp] theorem discardRequest_crc (s : State) : (discardRequest s).crc = s.crc := rfl
@[simp] theorem discardRequest_captured (s : State) : (discardRequest s).captured = s.captured := rfl
@[simp] theorem discardRequest_waiting (s : State) : (discardRequest s).waiting = s.waiting := rfl
@[simp] theorem discardRequest_events (s : State) : (discardRequest s).events = s.events := rfl
@[simp] theorem discardRequest_served (s : State) : (discardRequest s).served = s.served := rfl
@[simp] theorem discardRequest_result (s : State) : (discardRequest s).result = some .discard := rfl

/-! `emitSave`: one event. -/

@[simp] theorem emitSave_bank (s : State) : (emitSave s).bank = s.bank := rfl
@[simp] theorem emitSave_deviceId (s : State) : (emitSave s).deviceId = s.deviceId := rfl
@[simp] theorem emitSave_phase (s : State) : (emitSave s).phase = s.phase := rfl
@[simp] theorem emitSave_faulted (s : State) : (emitSave s).faulted = s.faulted := rfl
@[simp] theorem emitSave_busy (s : State) : (emitSave s).busy = s.busy := rfl
@[simp] theorem emitSave_crc (s : State) : (emitSave s).crc = s.crc := rfl
@[simp] theorem emitSave_captured (s : State) : (emitSave s).captured = s.captured := rfl
@[simp] theorem emitSave_waiting (s : State) : (emitSave s).waiting = s.waiting := rfl
@[simp] theorem emitSave_events (s : State) : (emitSave s).events = s.events ++ [.save s.bank] := rfl
@[simp] theorem emitSave_served (s : State) : (emitSave s).served = s.served := rfl
@[simp] theorem emitSave_result (s : State) : (emitSave s).result = s.result := rfl

/-! `emitRespond`: phase, one event, result. -/

@[simp] theorem emitRespond_bank (r : Frame) (s : State) : (emitRespond r s).bank = s.bank := rfl
@[simp] theorem emitRespond_deviceId (r : Frame) (s : State) : (emitRespond r s).deviceId = s.deviceId := rfl
@[simp] theorem emitRespond_phase (r : Frame) (s : State) : (emitRespond r s).phase = Phase.responded := rfl
@[simp] theorem emitRespond_faulted (r : Frame) (s : State) : (emitRespond r s).faulted = s.faulted := rfl
@[simp] theorem emitRespond_busy (r : Frame) (s : State) : (emitRespond r s).busy = s.busy := rfl
@[simp] theorem emitRespond_crc (r : Frame) (s : State) : (emitRespond r s).crc = s.crc := rfl
@[simp] theorem emitRespond_captured (r : Frame) (s : State) : (emitRespond r s).captured = s.captured := rfl
@[simp] theorem emitRespond_waiting (r : Frame) (s : State) : (emitRespond r s).waiting = s.waiting := rfl
@[simp] theorem emitRespond_events (r : Frame) (s : State) : (emitRespond r s).events = s.events ++ [.respond (s.captured.map Request.requester) r] := rfl
@[simp] theorem emitRespond_served (r : Frame) (s : State) : (emitRespond r s).served = s.served := rfl
@[simp] theorem emitRespond_result (r : Frame) (s : State) : (emitRespond r s).result = some (.respond r) := rfl

/-! `finishRequest`: phase, BUSY, the captured frame. -/

@[simp] theorem finishRequest_bank (s : State) : (finishRequest s).bank = s.bank := rfl
@[simp] theorem finishRequest_deviceId (s : State) : (finishRequest s).deviceId = s.deviceId := rfl
@[simp] theorem finishRequest_phase (s : State) : (finishRequest s).phase = if s.faulted then Phase.faulted else Phase.idle := rfl
@[simp] theorem finishRequest_faulted (s : State) : (finishRequest s).faulted = s.faulted := rfl
@[simp] theorem finishRequest_busy (s : State) : (finishRequest s).busy = false := rfl
@[simp] theorem finishRequest_crc (s : State) : (finishRequest s).crc = s.crc := rfl
@[simp] theorem finishRequest_captured (s : State) : (finishRequest s).captured = none := rfl
@[simp] theorem finishRequest_waiting (s : State) : (finishRequest s).waiting = s.waiting := rfl
@[simp] theorem finishRequest_events (s : State) : (finishRequest s).events = s.events := rfl
@[simp] theorem finishRequest_served (s : State) : (finishRequest s).served = s.served := rfl
@[simp] theorem finishRequest_result (s : State) : (finishRequest s).result = s.result := rfl

/-! `captureRequest`: phase, BUSY, the captured and the waiting frames, the counter. -/

@[simp] theorem captureRequest_bank (r : Request) (rest : List Request) (s : State) : (captureRequest r rest s).bank = s.bank := rfl
@[simp] theorem captureRequest_deviceId (r : Request) (rest : List Request) (s : State) : (captureRequest r rest s).deviceId = s.deviceId := rfl
@[simp] theorem captureRequest_phase (r : Request) (rest : List Request) (s : State) : (captureRequest r rest s).phase = Phase.received := rfl
@[simp] theorem captureRequest_faulted (r : Request) (rest : List Request) (s : State) : (captureRequest r rest s).faulted = s.faulted := rfl
@[simp] theorem captureRequest_busy (r : Request) (rest : List Request) (s : State) : (captureRequest r rest s).busy = true := rfl
@[simp] theorem captureRequest_crc (r : Request) (rest : List Request) (s : State) : (captureRequest r rest s).crc = s.crc := rfl
@[simp] theorem captureRequest_captured (r : Request) (rest : List Request) (s : State) : (captureRequest r rest s).captured = some r := rfl
@[simp] theorem captureRequest_waiting (r : Request) (rest : List Request) (s : State) : (captureRequest r rest s).waiting = rest := rfl
@[simp] theorem captureRequest_events (r : Request) (rest : List Request) (s : State) : (captureRequest r rest s).events = s.events := rfl
@[simp] theorem captureRequest_served (r : Request) (rest : List Request) (s : State) : (captureRequest r rest s).served = s.served + 1 := rfl
@[simp] theorem captureRequest_result (r : Request) (rest : List Request) (s : State) : (captureRequest r rest s).result = s.result := rfl

/-! `State.afterResponse`: phase, CRC register, one event, result. -/

@[simp] theorem afterResponse_bank (body : List Byte) (s : State) : (s.afterResponse body).bank = s.bank := rfl
@[simp] theorem afterResponse_deviceId (body : List Byte) (s : State) : (s.afterResponse body).deviceId = s.deviceId := rfl
@[simp] theorem afterResponse_phase (body : List Byte) (s : State) : (s.afterResponse body).phase = Phase.responded := rfl
@[simp] theorem afterResponse_faulted (body : List Byte) (s : State) : (s.afterResponse body).faulted = s.faulted := rfl
@[simp] theorem afterResponse_busy (body : List Byte) (s : State) : (s.afterResponse body).busy = s.busy := rfl
@[simp] theorem afterResponse_crc (body : List Byte) (s : State) : (s.afterResponse body).crc = crc16 body := rfl
@[simp] theorem afterResponse_captured (body : List Byte) (s : State) : (s.afterResponse body).captured = s.captured := rfl
@[simp] theorem afterResponse_waiting (body : List Byte) (s : State) : (s.afterResponse body).waiting = s.waiting := rfl
@[simp] theorem afterResponse_events (body : List Byte) (s : State) : (s.afterResponse body).events = s.events ++ [.respond (s.captured.map Request.requester) (sealFrame body)] := rfl
@[simp] theorem afterResponse_served (body : List Byte) (s : State) : (s.afterResponse body).served = s.served := rfl
@[simp] theorem afterResponse_result (body : List Byte) (s : State) : (s.afterResponse body).result = some (.respond (sealFrame body)) := rfl

/-! `State.afterFault`: phase, FAULTED, CRC register, result. -/

@[simp] theorem afterFault_bank (e : FaultReason) (c : Word) (s : State) : (s.afterFault e c).bank = s.bank := rfl
@[simp] theorem afterFault_deviceId (e : FaultReason) (c : Word) (s : State) : (s.afterFault e c).deviceId = s.deviceId := rfl
@[simp] theorem afterFault_phase (e : FaultReason) (c : Word) (s : State) : (s.afterFault e c).phase = Phase.faulted := rfl
@[simp] theorem afterFault_faulted (e : FaultReason) (c : Word) (s : State) : (s.afterFault e c).faulted = true := rfl
@[simp] theorem afterFault_busy (e : FaultReason) (c : Word) (s : State) : (s.afterFault e c).busy = s.busy := rfl
@[simp] theorem afterFault_crc (e : FaultReason) (c : Word) (s : State) : (s.afterFault e c).crc = c := rfl
@[simp] theorem afterFault_captured (e : FaultReason) (c : Word) (s : State) : (s.afterFault e c).captured = s.captured := rfl
@[simp] theorem afterFault_waiting (e : FaultReason) (c : Word) (s : State) : (s.afterFault e c).waiting = s.waiting := rfl
@[simp] theorem afterFault_events (e : FaultReason) (c : Word) (s : State) : (s.afterFault e c).events = s.events := rfl
@[simp] theorem afterFault_served (e : FaultReason) (c : Word) (s : State) : (s.afterFault e c).served = s.served := rfl
@[simp] theorem afterFault_result (e : FaultReason) (c : Word) (s : State) : (s.afterFault e c).result = some (.fault e) := rfl

/-! `State.deliver`: the waiting frames alone. -/

@[simp] theorem deliver_bank (r : Request) (s : State) : (s.deliver r).bank = s.bank := rfl
@[simp] theorem deliver_deviceId (r : Request) (s : State) : (s.deliver r).deviceId = s.deviceId := rfl
@[simp] theorem deliver_phase (r : Request) (s : State) : (s.deliver r).phase = s.phase := rfl
@[simp] theorem deliver_faulted (r : Request) (s : State) : (s.deliver r).faulted = s.faulted := rfl
@[simp] theorem deliver_busy (r : Request) (s : State) : (s.deliver r).busy = s.busy := rfl
@[simp] theorem deliver_crc (r : Request) (s : State) : (s.deliver r).crc = s.crc := rfl
@[simp] theorem deliver_captured (r : Request) (s : State) : (s.deliver r).captured = s.captured := rfl
@[simp] theorem deliver_waiting (r : Request) (s : State) : (s.deliver r).waiting = s.waiting ++ [r] := rfl
@[simp] theorem deliver_events (r : Request) (s : State) : (s.deliver r).events = s.events := rfl
@[simp] theorem deliver_served (r : Request) (s : State) : (s.deliver r).served = s.served := rfl
@[simp] theorem deliver_result (r : Request) (s : State) : (s.deliver r).result = s.result := rfl

end Sys2Proof.Machine
end

