-- ==== Sys2Proof/Laws/Responses.lean ====
section
/-! SUPPORT. What building a response and taking an exception do to the state (43_dispatcher.md R172, 60_exceptions.md
R208). -/

namespace Sys2Proof.Machine

theorem sealFrame_eq (out : List Byte) : sealFrame out = out ++ [loByte (crc16 out), hiByte (crc16 out)] := rfl

theorem runCompute_eq_withCrc (bytes : List Byte) (s : State) : runCompute bytes s = s.withCrc (crc16 bytes) := rfl

/-- Everything `respondWith` does where every field fits. -/
theorem respondWith_ok {u fn : Byte} {fields : List FieldSpec} {bs : List Byte} (h : fieldsBytes fields = some bs)
    (s : State) : respondWith u fn fields s = s.afterResponse (u :: fn :: bs) := by
  rw [respondWith, pduEncode_ok h]
  simp only [afterEncode_ok h]
  rfl

/-- Everything `respondWith` does where a field does not fit (R122). -/
theorem respondWith_overflow {u fn : Byte} {fields : List FieldSpec} (h : fieldsBytes fields = none) (s : State) :
    respondWith u fn fields s = s.afterFault .fieldOverflow s.crc := by
  rw [respondWith, pduEncode_error h]
  simp only [afterEncode_error h]
  rfl

/-- Everything taking an exception does (R172, R208): one response, and never a fault (R209). -/
theorem raiseException_eq (f : Frame) (code : ExceptionCode) (s : State) :
    raiseException f code s
      = s.afterResponse [f.getD 0 0#8, f.getD 1 0#8 ||| 0x80#8, BitVec.ofNat 8 (exceptionCode code)] := by
  have h : fieldsBytes [.b1 (exceptionCode code)] = some [BitVec.ofNat 8 (exceptionCode code)] := by
    cases code <;> rfl
  rw [raiseException, respondWith_ok h]
  rfl

theorem raiseFault_eq (e : FaultReason) (s : State) : raiseFault e s = s.afterFault e s.crc := rfl

@[simp] theorem afterResponse_toPhase (body : List Byte) (p : Phase) (s : State) :
    (s.toPhase p).afterResponse body = s.afterResponse body := rfl

@[simp] theorem afterResponse_withCrc (body : List Byte) (c : Word) (s : State) :
    (s.withCrc c).afterResponse body = s.afterResponse body := rfl

@[simp] theorem afterFault_toPhase (e : FaultReason) (c : Word) (p : Phase) (s : State) :
    (s.toPhase p).afterFault e c = s.afterFault e c := rfl

@[simp] theorem afterFault_withCrc (e : FaultReason) (c d : Word) (s : State) :
    (s.withCrc d).afterFault e c = s.afterFault e c := rfl

end Sys2Proof.Machine
end

