-- ==== Sys2Proof/Laws/Operations.lean ====
section
/-! SUPPORT. What each function-code operation does (43_dispatcher.md R154, R160, R170), once and for all operands: the one
lemma per operation that later proofs cite instead of unfolding it. -/

namespace Sys2Proof.Machine

open Sys2Proof

/-- Decode of a complete 0x03 frame (R154): the checksum verdict, then start and quantity. -/
theorem pduDecode_readFrame (u : Byte) (start quantity : Word) (surplus : List Byte) (c : Word) :
    pduDecode (readFrame u (.complete start quantity surplus c)) readLayout =
      .ok (if crc16 (readInput u start quantity surplus) = c then
        some { unitId := u, functionId := Config.fcRead, fields := [start.toNat, quantity.toNat] } else none) := by
  have hf : readFrame u (.complete start quantity surplus c)
      = u :: Config.fcRead :: (beBytes start ++ beBytes quantity ++ surplus) ++ leBytes c := by
    simp [readFrame, encodeRead]
  rw [hf, pduDecode_append_leBytes, if_pos (by simp [readLayout, layoutBytes, widthBytes]; omega)]
  simp [readInput, readLayout, walkFields, beBytes]
  rfl

theorem afterDecode_readFrame (u : Byte) (start quantity : Word) (surplus : List Byte) (c : Word) (s : State) :
    afterDecode (readFrame u (.complete start quantity surplus c)) readLayout s
      = s.withCrc (crc16 (readInput u start quantity surplus)) := by
  have hf : readFrame u (.complete start quantity surplus c)
      = u :: Config.fcRead :: (beBytes start ++ beBytes quantity ++ surplus) ++ leBytes c := by
    simp [readFrame, encodeRead]
  rw [hf, afterDecode_append_leBytes _ _ _ _ _ (by simp [readLayout, layoutBytes, widthBytes]; omega)]
  simp [runCompute_eq_withCrc, readInput]

theorem rangeOk_iff (a n : Nat) : rangeOk a n = true ↔ a + n ≤ 1000 := by
  simp only [rangeOk, rangeOkWith, Config.strictStartCheck, Bool.not_false, Bool.true_or, Bool.and_true]
  exact decide_eq_true_iff

theorem memRead_flatMap_beBytes (b : Bank) (a n : Nat) : (memRead b a n).flatMap beBytes = registerBytes b a n := by
  simp [memRead, registerBytes, List.flatMap_map, beBytes]

/-- Everything a complete 0x03 request does (R154): checksum, then range, then the width of byteCount. -/
theorem execRead_complete (u : Byte) (start quantity : Word) (surplus : List Byte) (c : Word) (s : State) :
    execReadHoldingRegisters u (.complete start quantity surplus c) s = .next (
      if crc16 (readInput u start quantity surplus) = c then
        if start.toNat + quantity.toNat ≤ 1000 then
          if quantity.toNat ≤ 127 then
            s.afterResponse (u :: 0x03#8 :: BitVec.ofNat 8 (2 * quantity.toNat)
              :: registerBytes s.bank start.toNat quantity.toNat)
          else s.afterFault .fieldOverflow c
        else s.afterResponse [u, 0x83#8, 2#8]
      else s.afterResponse [u, 0x83#8, 4#8]) := by
  have h0 : (readFrame u (.complete start quantity surplus c)).getD 0 0#8 = u := rfl
  have h1 : (readFrame u (.complete start quantity surplus c)).getD 1 0#8 = 0x03#8 := rfl
  rw [execReadHoldingRegisters]
  simp only [pduDecode_readFrame, afterDecode_readFrame]
  by_cases hc : crc16 (readInput u start quantity surplus) = c
  · subst hc
    simp only [if_true, serveRead, List.getD_cons_zero, List.getD_cons_succ, rangeOk_iff]
    by_cases hr : start.toNat + quantity.toNat ≤ 1000
    · simp only [hr, if_true]
      by_cases hq : quantity.toNat ≤ 127
      · have hb := fieldsBytes_cons_of_some (fieldBytes_b1 (2 * quantity.toNat) (by omega))
          (fieldsBytes_words (memRead s.bank start.toNat quantity.toNat))
        simp only [hq, if_true]
        simp only [toPhase_bank, withCrc_bank, respondWith_ok hb, memRead_flatMap_beBytes]
        rfl
      · have hb : fieldsBytes (.b1 (2 * quantity.toNat) :: (memRead s.bank start.toNat quantity.toNat).map
            fun v => FieldSpec.w2 v.toNat) = none := by
          have h := fieldsBytes_isSome (.b1 (2 * quantity.toNat) ::
            (memRead s.bank start.toNat quantity.toNat).map fun v => FieldSpec.w2 v.toNat)
          rw [List.all_cons, show fieldFits (.b1 (2 * quantity.toNat)) = false by simp [fieldFits]; omega,
            Bool.false_and] at h
          simpa using h
        simp only [hq, if_false, toPhase_bank, withCrc_bank, respondWith_overflow hb]
        rfl
    · simp only [hr, if_false, raiseException_eq, h0, h1]
      rfl
  · simp only [hc, if_false, raiseException_eq, h0, h1]
    rfl

/-- Decode of a complete 0x10 frame with the layout of its length (R160, R73): the checksum verdict, then start, quantity,
byteCount and the values. -/
theorem pduDecode_writeFrame (u : Byte) (start quantity : Word) (bc : Byte) (values : List Word) (odd : Option Byte)
    (c : Word) (n : Nat) (hn : writeValueCount n = values.length) :
    pduDecode (writeFrame u (.complete start quantity bc values odd c)) (writeLayout n) =
      .ok (if crc16 (writeInput u start quantity bc values odd) = c then
        some { unitId := u, functionId := Config.fcWrite,
               fields := start.toNat :: quantity.toNat :: bc.toNat :: values.map BitVec.toNat } else none) := by
  have hfs : fieldsBytes (.w2 start.toNat :: .w2 quantity.toNat :: .b1 bc.toNat :: values.map fun w => .w2 w.toNat)
      = some (beBytes start ++ (beBytes quantity ++ ([bc] ++ values.flatMap beBytes))) := by
    have e1 := start.isLt
    have e2 := quantity.isLt
    have e3 := bc.isLt
    have a := fieldsBytes_cons_of_some (fieldBytes_b1 bc.toNat (by omega)) (fieldsBytes_words values)
    have b := fieldsBytes_cons_of_some (fieldBytes_w2 quantity.toNat (by omega)) a
    have d := fieldsBytes_cons_of_some (fieldBytes_w2 start.toNat (by omega)) b
    simpa using d
  have hw : writeLayout n = (FieldSpec.w2 start.toNat :: .w2 quantity.toNat :: .b1 bc.toNat ::
      values.map fun w => FieldSpec.w2 w.toNat).map fieldWidth := by
    simp [writeLayout, hn, fieldWidth, Function.comp_def]
  have hwalk := walkFields_fieldsBytes hfs [u, Config.fcWrite] (odd.toList ++ leBytes c)
  have hf : writeFrame u (.complete start quantity bc values odd c)
      = u :: Config.fcWrite :: (beBytes start ++ (beBytes quantity ++ ([bc] ++ values.flatMap beBytes)) ++ odd.toList)
        ++ leBytes c := by
    simp [writeFrame, encodeWrite]
  have hlen := fieldsBytes_length hfs
  rw [hf, pduDecode_append_leBytes, if_pos (by rw [hw, ← hlen]; simp)]
  rw [← hw] at hwalk
  simp only [List.length_cons, List.length_nil, Nat.zero_add, List.append_assoc, List.cons_append, List.nil_append,
    Nat.reduceAdd, List.map_cons, List.map_map, fieldValue, Function.comp_def] at hwalk ⊢
  rw [hwalk]
  simp [writeInput]

theorem afterDecode_writeFrame (u : Byte) (start quantity : Word) (bc : Byte) (values : List Word) (odd : Option Byte)
    (c : Word) (n : Nat) (hn : writeValueCount n = values.length) (s : State) :
    afterDecode (writeFrame u (.complete start quantity bc values odd c)) (writeLayout n) s
      = s.withCrc (crc16 (writeInput u start quantity bc values odd)) := by
  have hf : writeFrame u (.complete start quantity bc values odd c)
      = u :: Config.fcWrite :: (beBytes start ++ (beBytes quantity ++ ([bc] ++ values.flatMap beBytes)) ++ odd.toList)
        ++ leBytes c := by
    simp [writeFrame, encodeWrite]
  have hw : layoutBytes (writeLayout n) = 5 + 2 * values.length := by
    have h : ∀ m, layoutBytes (List.replicate m .two) = 2 * m := by
      intro m
      induction m with
      | zero => rfl
      | succ m ih => simp [List.replicate_succ, layoutBytes, widthBytes, ih]; omega
    simp [writeLayout, layoutBytes, widthBytes, hn, h]
    omega
  rw [hf, afterDecode_append_leBytes _ _ _ _ _ (by rw [hw]; simp; omega)]
  simp [runCompute_eq_withCrc, writeInput]

/-- The value count of a complete 0x10 frame is its number of value words (R73). -/
theorem writeValueCount_writeFrame (u : Byte) (start quantity : Word) (bc : Byte) (values : List Word)
    (odd : Option Byte) (c : Word) :
    writeValueCount (writeFrame u (.complete start quantity bc values odd c)).length = values.length := by
  have := option_toList_length_le_one odd
  rw [writeFrame_complete_length, writeValueCount]
  omega

/-- The bytes of the echo of start and quantity (R164). -/
theorem fieldsBytes_echo (start quantity : Word) :
    fieldsBytes [.w2 start.toNat, .w2 quantity.toNat] = some (beBytes start ++ beBytes quantity) := by
  simpa using fieldsBytes_words [start, quantity]

/-- Everything a complete 0x10 request does (R160): checksum, then range, then byteCount, then the value count. -/
theorem execWrite_complete (u : Byte) (start quantity : Word) (bc : Byte) (values : List Word) (odd : Option Byte)
    (c : Word) (s : State) :
    execWriteMultipleRegisters u (.complete start quantity bc values odd c) s = .next (
      if crc16 (writeInput u start quantity bc values odd) = c then
        if start.toNat + quantity.toNat ≤ 1000 then
          if bc.toNat = 2 * quantity.toNat ∧ values.length = quantity.toNat then
            (emitSave { s with bank := memWrite s.bank start.toNat values }).afterResponse
              (u :: 0x10#8 :: (beBytes start ++ beBytes quantity))
          else s.afterResponse [u, 0x90#8, 3#8]
        else s.afterResponse [u, 0x90#8, 2#8]
      else s.afterResponse [u, 0x90#8, 4#8]) := by
  have hn := writeValueCount_writeFrame u start quantity bc values odd c
  have h0 : (writeFrame u (.complete start quantity bc values odd c)).getD 0 0#8 = u := rfl
  have h1 : (writeFrame u (.complete start quantity bc values odd c)).getD 1 0#8 = 0x10#8 := rfl
  rw [execWriteMultipleRegisters]
  simp only [pduDecode_writeFrame _ _ _ _ _ _ _ _ hn, afterDecode_writeFrame _ _ _ _ _ _ _ _ hn]
  by_cases hc : crc16 (writeInput u start quantity bc values odd) = c
  · have hv : ((values.map BitVec.toNat).take values.length).map (BitVec.ofNat 16) = values := by
      rw [List.take_of_length_le (by simp), List.map_map]
      exact (List.map_congr_left fun w _ => by simp).trans (List.map_id _)
    simp only [hc, if_true, serveWrite, List.getD_cons_zero, List.getD_cons_succ, rangeOk_iff, hn,
      List.drop_succ_cons, List.drop_zero, hv, raiseException_eq, h0, h1, respondWith_ok (fieldsBytes_echo start quantity)]
    by_cases hr : start.toNat + quantity.toNat ≤ 1000
    · by_cases hb : bc.toNat = 2 * quantity.toNat
      · by_cases hm : values.length = quantity.toNat
        · simp only [hr, hb, hm, and_self, if_true]
          rfl
        · simp only [hr, hb, hm, and_false, if_true, if_false]
          rfl
      · simp only [hr, hb, false_and, if_true, if_false]
        rfl
    · simp only [hr, if_false]
      rfl
  · simp only [hc, if_false, raiseException_eq, h0, h1]
    rfl

/-- Everything a request with another function code does (R170). -/
theorem execIllegalFunction_eq (u fc : Byte) (rest : List Byte) (s : State) :
    execIllegalFunction u fc rest s = .next (s.afterResponse [u, fc ||| 0x80#8, 1#8]) := by
  rw [execIllegalFunction, raiseException_eq]
  rfl

/-- A frame too short for its function (R154, R160). -/
theorem execRead_short (u : Byte) (body : List Byte) (s : State) :
    execReadHoldingRegisters u (.short body) s = .next (s.afterFault .frameTooShort s.crc) := rfl

theorem execWrite_short (u : Byte) (body : List Byte) (s : State) :
    execWriteMultipleRegisters u (.short body) s = .next (s.afterFault .frameTooShort s.crc) := rfl

end Sys2Proof.Machine
end

