-- ==== Sys2Proof/Laws/Inversion.lean ====
section
/-! SUPPORT. Said once: every way an instruction can end (`exec_ends`), every way a frame can be taken (`selectRequest_some`)
and every way a step can end (`step_ends`). Invariants and frames are derived from these, not from the definitions. -/

namespace Sys2Proof.Machine

open Sys2Proof

/-- The ways instruction `i` can end in state `s`. -/
inductive ExecEnds (i : Instr) (s : State) : State → Prop where
  /-- A component operation (R100, R103, R121, R124) answers its result. -/
  | component (c : Word) (r : OpResult) (hi : encode i = none)
      (hr : (∃ w, r = .checksum w) ∨ (∃ b, r = .verdict b) ∨ (∃ f, r = .encoded f) ∨ (∃ p, r = .decoded p)) :
      ExecEnds i s { s with crc := c, result := some r }
  /-- A Fault outcome (R206). -/
  | fault (e : FaultReason) (c : Word) : ExecEnds i s (s.afterFault e c)
  /-- A wire exception (R208), for a request of this frame. -/
  | exception (f : Frame) (code : ExceptionCode) (hf : encode i = some f) :
      ExecEnds i s (s.afterResponse [f.getD 0 0#8, f.getD 1 0#8 ||| 0x80#8, BitVec.ofNat 8 (exceptionCode code)])
  /-- A successful read (R154). -/
  | read (u : Byte) (start quantity : Word) (surplus : List Byte) (c : Word)
      (hi : i = .readHoldingRegisters u (.complete start quantity surplus c))
      (hc : crc16 (readInput u start quantity surplus) = c)
      (hr : start.toNat + quantity.toNat ≤ 1000) (hq : quantity.toNat ≤ 127) :
      ExecEnds i s (s.afterResponse (u :: 0x03#8 :: BitVec.ofNat 8 (2 * quantity.toNat)
        :: registerBytes s.bank start.toNat quantity.toNat))
  /-- A successful write (R160). -/
  | write (u : Byte) (start quantity : Word) (bc : Byte) (values : List Word) (odd : Option Byte) (c : Word)
      (hi : i = .writeMultipleRegisters u (.complete start quantity bc values odd c))
      (hc : crc16 (writeInput u start quantity bc values odd) = c)
      (hr : start.toNat + quantity.toNat ≤ 1000) (hb : bc.toNat = 2 * quantity.toNat)
      (hm : values.length = quantity.toNat) :
      ExecEnds i s ((emitSave { s with bank := memWrite s.bank start.toNat values }).afterResponse
        (u :: 0x10#8 :: (beBytes start ++ beBytes quantity)))

theorem readException_ends (u : Byte) (req : ReadRequest) (code : ExceptionCode) (s : State) :
    ExecEnds (.readHoldingRegisters u req) s (s.afterResponse [u, 0x83#8, BitVec.ofNat 8 (exceptionCode code)]) := by
  have h := ExecEnds.exception (i := .readHoldingRegisters u req) (s := s) (readFrame u req) code rfl
  have h0 : (readFrame u req).getD 0 0#8 = u := rfl
  have h1 : (readFrame u req).getD 1 0#8 = Config.fcRead := rfl
  have h2 : Config.fcRead ||| 0x80#8 = 0x83#8 := by decide
  rwa [h0, h1, h2] at h

theorem writeException_ends (u : Byte) (req : WriteRequest) (code : ExceptionCode) (s : State) :
    ExecEnds (.writeMultipleRegisters u req) s
      (s.afterResponse [u, 0x90#8, BitVec.ofNat 8 (exceptionCode code)]) := by
  have h := ExecEnds.exception (i := .writeMultipleRegisters u req) (s := s) (writeFrame u req) code rfl
  have h0 : (writeFrame u req).getD 0 0#8 = u := rfl
  have h1 : (writeFrame u req).getD 1 0#8 = Config.fcWrite := rfl
  have h2 : Config.fcWrite ||| 0x80#8 = 0x90#8 := by decide
  rwa [h0, h1, h2] at h

/-- Every instruction ends in a next state, in one of these ways. -/
theorem exec_ends (i : Instr) (s : State) : ∃ t, exec i s = .next t ∧ ExecEnds i s t := by
  cases i with
  | readHoldingRegisters u req =>
    cases req with
    | short body => exact ⟨_, rfl, .fault .frameTooShort s.crc⟩
    | complete start quantity surplus c =>
      refine ⟨_, execRead_complete u start quantity surplus c s, ?_⟩
      split
      · rename_i hc
        split
        · rename_i hr
          split
          · rename_i hq
            exact .read u start quantity surplus c rfl hc hr hq
          · exact .fault .fieldOverflow c
        · exact readException_ends u _ .illegalDataAddress s
      · exact readException_ends u _ .checksumFailure s
  | writeMultipleRegisters u req =>
    cases req with
    | short body => exact ⟨_, rfl, .fault .frameTooShort s.crc⟩
    | complete start quantity bc values odd c =>
      refine ⟨_, execWrite_complete u start quantity bc values odd c s, ?_⟩
      split
      · rename_i hc
        split
        · rename_i hr
          split
          · rename_i hb
            exact .write u start quantity bc values odd c rfl hc hr hb.1 hb.2
          · exact writeException_ends u _ .illegalDataValue s
        · exact writeException_ends u _ .illegalDataAddress s
      · exact writeException_ends u _ .checksumFailure s
  | illegalFunction u fc rest =>
    exact ⟨_, execIllegalFunction_eq u fc rest s, .exception (anyFrame u fc rest) .illegalFunction rfl⟩
  | crcCompute bytes => exact ⟨_, rfl, .component _ _ rfl (.inl ⟨_, rfl⟩)⟩
  | crcValidate bytes expected => exact ⟨_, rfl, .component _ _ rfl (.inr (.inl ⟨_, rfl⟩))⟩
  | pduEncode u fn fields =>
    cases h : fieldsBytes fields with
    | some bs =>
      refine ⟨_, by rw [exec, execPduEncode, pduEncode_ok h], ?_⟩
      simp only [afterEncode_ok h]
      exact .component _ _ rfl (.inr (.inr (.inl ⟨_, rfl⟩)))
    | none =>
      refine ⟨_, by rw [exec, execPduEncode, pduEncode_error h], ?_⟩
      simp only [afterEncode_error h]
      exact .fault .fieldOverflow s.crc
  | pduDecode f layout =>
    by_cases h : fitsLayout f layout = true
    · by_cases hc : crc16 (coveredBytes f) = receivedCrc f
      · refine ⟨_, by rw [exec, execPduDecode, pduDecode, if_pos h, if_pos hc], ?_⟩
        simp only [afterDecode, h, if_true]
        exact .component _ _ rfl (.inr (.inr (.inr ⟨_, rfl⟩)))
      · refine ⟨_, by rw [exec, execPduDecode, pduDecode, if_pos h, if_neg hc], ?_⟩
        simp only [afterDecode, h, if_true]
        exact .component _ _ rfl (.inr (.inr (.inr ⟨_, rfl⟩)))
    · refine ⟨_, by rw [exec, execPduDecode, pduDecode, if_neg h], ?_⟩
      rw [afterDecode, if_neg h]
      exact .fault .frameTooShort s.crc

/-- A next state of `exec` is one of the ends. -/
theorem ends_of_exec {i : Instr} {s t : State} (h : exec i s = .next t) : ExecEnds i s t := by
  obtain ⟨t', ht, he⟩ := exec_ends i s
  rw [h] at ht
  cases ht
  exact he

/-- A frame taken is one that waited, and the others keep their order (R218). -/
theorem selectRequest_some {n : Nat} {l rest : List Request} {r : Request} (h : selectRequest n l = some (r, rest)) :
    ∃ before after, l = before ++ r :: after ∧ rest = before ++ after := by
  match l with
  | [] => simp [selectRequest] at h
  | [a] =>
    simp only [selectRequest, Option.some.injEq, Prod.mk.injEq] at h
    obtain ⟨rfl, rfl⟩ := h
    exact ⟨[], [], rfl, rfl⟩
  | a :: b :: l =>
    simp only [selectRequest, Option.some.injEq, Prod.mk.injEq] at h
    obtain ⟨hr, rfl⟩ := h
    have hk : Config.serviceChoice n % (a :: b :: l).length < (a :: b :: l).length := Nat.mod_lt _ (by simp)
    generalize Config.serviceChoice n % (a :: b :: l).length = k at hr hk ⊢
    refine ⟨(a :: b :: l).take k, (a :: b :: l).drop (k + 1), ?_, List.eraseIdx_eq_take_drop_succ _ _⟩
    have he : (a :: b :: l)[k] = r := by rw [← hr, List.getD_eq_getElem _ _ hk]
    rw [← he, List.getElem_cons_drop, List.take_append_drop]

theorem selectRequest_eq_none {n : Nat} {l : List Request} : selectRequest n l = none ↔ l = [] := by
  match l with
  | [] => simp [selectRequest]
  | [a] => simp [selectRequest]
  | a :: b :: l => simp [selectRequest]

/-- The state in which the operation of a captured request runs (R150). -/
abbrev State.serving (s : State) (r : Request) (rest : List Request) : State :=
  (captureRequest r rest s).toPhase .functionIdentified

/-- The ways a step that takes request `r` can end. -/
inductive ServeEnds (s : State) (r : Request) (rest : List Request) : State → Prop where
  /-- The frame is for another unit (R151). -/
  | discard (u : Byte) (more : List Byte) (hf : r.frame = u :: more) (hu : u ≠ s.deviceId) :
      ServeEnds s r rest (finishRequest (discardRequest (captureRequest r rest s)))
  /-- The frame has no function code (R151, R152). -/
  | tooShort (hf : r.frame = [] ∨ r.frame = [s.deviceId]) :
      ServeEnds s r rest (finishRequest (raiseFault .frameTooShort (captureRequest r rest s)))
  /-- The frame's instruction ran. -/
  | ran (i : Instr) (t : State) (fc : Byte) (body : List Byte) (hf : r.frame = s.deviceId :: fc :: body)
      (hd : decode r.frame = .ok i) (he : ExecEnds i (s.serving r rest) t) :
      ServeEnds s r rest (finishRequest t)

theorem step_of_faulted {s : State} (h : s.faulted = true) : step s = .fault .engineFaulted := by
  rw [step, if_pos h]

theorem step_of_selected {s : State} {r : Request} {rest : List Request} (hf : s.faulted = false)
    (h : selectRequest s.served s.waiting = some (r, rest)) :
    step s = mapNext finishRequest (serveRequest r (captureRequest r rest s)) := by
  simp [step, hf, h]

/-- Every step that takes a request ends in a next state, in one of these ways. -/
theorem serve_ends {s : State} {r : Request} {rest : List Request} (hf : s.faulted = false)
    (h : selectRequest s.served s.waiting = some (r, rest)) : ∃ t, step s = .next t ∧ ServeEnds s r rest t := by
  rw [step_of_selected hf h, serveRequest]
  match hr : r.frame with
  | [] => exact ⟨_, rfl, .tooShort (.inl hr)⟩
  | u :: more =>
    by_cases hu : u = s.deviceId
    · have he : entryCheck (u :: more) (captureRequest r rest s).deviceId = .accept := by
        simp [entryCheck, hu]
      simp only [he]
      match more with
      | [] => exact ⟨_, rfl, .tooShort (.inr (by rw [hr, hu]))⟩
      | fc :: body =>
        have hd : ∃ i, decode (u :: fc :: body) = .ok i := by
          simp only [decode]
          split
          · exact ⟨_, rfl⟩
          · split <;> exact ⟨_, rfl⟩
        obtain ⟨i, hi⟩ := hd
        obtain ⟨t, ht, he⟩ := exec_ends i (s.serving r rest)
        simp only [hi, ht, mapNext]
        exact ⟨_, rfl, .ran i t fc body (by rw [hr, hu]) (by rw [hr, hi]) he⟩
    · have he : entryCheck (u :: more) (captureRequest r rest s).deviceId = .discard := by
        simp [entryCheck, hu]
      simp only [he]
      exact ⟨_, rfl, .discard u more hr hu⟩

/-- A step that answers a next state either found nothing waiting and kept the state, or took a request. -/
theorem step_ends {s t : State} (h : step s = .next t) :
    s.faulted = false ∧
      ((s.waiting = [] ∧ t = s) ∨
        ∃ r rest, selectRequest s.served s.waiting = some (r, rest) ∧ ServeEnds s r rest t) := by
  have hf : s.faulted = false := by
    by_contra hn
    rw [step_of_faulted (by simpa using hn)] at h
    cases h
  refine ⟨hf, ?_⟩
  cases hs : selectRequest s.served s.waiting with
  | none =>
    simp only [step, hf, hs, Bool.false_eq_true, if_false, Host.Outcome.next.injEq] at h
    exact .inl ⟨selectRequest_eq_none.mp hs, h.symm⟩
  | some p =>
    obtain ⟨r, rest⟩ := p
    obtain ⟨t', ht, he⟩ := serve_ends hf hs
    rw [h] at ht
    cases ht
    exact .inr ⟨r, rest, rfl, he⟩

end Sys2Proof.Machine
end

