-- ==== Sys2Proof/Laws/PerInstr.lean ====
section
/-! SUPPORT. A statement about every instruction as syntax, one lemma per constructor: the header of its frame
(30_encoding.md R60, R69). -/

namespace Sys2Proof.Laws.FrameHeader

open Sys2Proof

/-- Where an instruction has a frame, bytes 0 and 1 are there, and byte 1 is 0x03 for a read, 0x10 for a write, and, in a
well-formed instruction, neither of them for any other function. -/
def Statement (i : Instr) : Prop :=
  ∀ f, encode i = some f → ∃ u fc body, f = u :: fc :: body ∧
    ((∃ req, i = .readHoldingRegisters u req) ∧ fc = 0x03#8 ∨
      (∃ req, i = .writeMultipleRegisters u req) ∧ fc = 0x10#8 ∨
      i = .illegalFunction u fc body ∧ (i.wellFormed = true → fc ≠ 0x03#8 ∧ fc ≠ 0x10#8))

theorem readHoldingRegisters (u : Byte) (req : ReadRequest) : Statement (.readHoldingRegisters u req) := by
  intro f h
  cases h
  exact ⟨u, _, _, rfl, .inl ⟨⟨req, rfl⟩, rfl⟩⟩

theorem writeMultipleRegisters (u : Byte) (req : WriteRequest) : Statement (.writeMultipleRegisters u req) := by
  intro f h
  cases h
  exact ⟨u, _, _, rfl, .inr (.inl ⟨⟨req, rfl⟩, rfl⟩)⟩

theorem illegalFunction (u fc : Byte) (rest : List Byte) : Statement (.illegalFunction u fc rest) := by
  intro f h
  cases h
  exact ⟨u, fc, rest, rfl, .inr (.inr ⟨rfl, by simp [Instr.wellFormed]⟩)⟩

theorem crcCompute (bytes : List Byte) : Statement (.crcCompute bytes) := by
  intro f h
  cases h

theorem crcValidate (bytes : List Byte) (expected : Word) : Statement (.crcValidate bytes expected) := by
  intro f h
  cases h

theorem pduEncode (u fn : Byte) (fields : List FieldSpec) : Statement (.pduEncode u fn fields) := by
  intro f h
  cases h

theorem pduDecode (frame : Frame) (layout : List Width) : Statement (.pduDecode frame layout) := by
  intro f h
  cases h

end Sys2Proof.Laws.FrameHeader
end

