-- ==== Sys2Proof/Tests/Slice0.lean ====
section
/-! SUPPORT. Small tests of single steps, their expected results taken from 95_test_vectors.md, and a witness for the
hypotheses of each statement that has any. -/

set_option Elab.async false

namespace Sys2Proof.Tests

open Sys2Proof Sys2Proof.Machine

/-! ## Helpers -/

/-- A state at reset with one frame waiting, from connection 7. -/
def waitingFor (f : Frame) (s : State := State.reset) : State := { s with waiting := [{ requester := 7, frame := f }] }

/-- A state with one register set. -/
def withReg (i : Nat) (v : Word) (s : State := State.reset) : State := { s with bank := writeReg s.bank i v }

/-- What an outcome's next state answers; none where it is no next state. -/
def answerOf (o : Host.Outcome State Fault Refusal) : Option OpResult :=
  match o with
  | .next t => t.result
  | .fault _ => none
  | .refused _ => none

/-- The registers named, in an outcome's next state. -/
def regsOf (o : Host.Outcome State Fault Refusal) (is : List Nat) : List Word :=
  match o with
  | .next t => is.map (readReg t.bank)
  | .fault _ => []
  | .refused _ => []

/-- Whether an outcome is a next state. -/
def isNext (o : Host.Outcome State Fault Refusal) : Bool :=
  match o with
  | .next _ => true
  | .fault _ => false
  | .refused _ => false

/-! ## WellFormed refuses an ill-formed term for each of its checks -/

theorem test_wf_read_short_of_six_bytes : (Instr.readHoldingRegisters 1 (.short [0, 0, 0, 0, 0, 0])).wellFormed = false := by
  decide

theorem test_wf_write_short_of_seven_bytes :
    (Instr.writeMultipleRegisters 1 (.short [0, 0, 0, 0, 0, 0, 0])).wellFormed = false := by
  decide

theorem test_wf_illegal_0x03 : (Instr.illegalFunction 1 0x03 []).wellFormed = false := by decide

theorem test_wf_illegal_0x10 : (Instr.illegalFunction 1 0x10 []).wellFormed = false := by decide

/-! ## Decoding: frames written out byte by byte from 30_encoding.md R61, R63, R69 -/

/-- V-D02: start 0x03E7 in bytes 2-3, quantity 1 in bytes 4-5, the checksum low byte first. -/
theorem test_decode_read : decode [0x01, 0x03, 0x03, 0xE7, 0x00, 0x01, 0x34, 0x79]
    = .ok (.readHoldingRegisters 0x01 (.complete 0x03E7 0x0001 [] 0x7934)) := by decide

/-- V-W16: values big-endian from byte 7. -/
theorem test_decode_write :
    decode [0x01, 0x10, 0x00, 0x05, 0x00, 0x03, 0x06, 0xFF, 0xFF, 0x00, 0x00, 0x80, 0x01, 0x56, 0x8B]
      = .ok (.writeMultipleRegisters 0x01 (.complete 5 3 6 [0xFFFF, 0x0000, 0x8001] none 0x8B56)) := by decide

/-- V-D23: 0x83 is no served function, though its low bits are those of 0x03. -/
theorem test_decode_illegal : decode [0x01, 0x83, 0x00, 0x00, 0xF0, 0x30]
    = .ok (.illegalFunction 0x01 0x83 [0x00, 0x00, 0xF0, 0x30]) := by decide

/-- V-D14, V-D17: no unit id, no function code. -/
theorem test_decode_errors : decode [] = .error .noUnitId ∧ decode [0x01] = .error .noFunctionCode := by decide

/-- The two rows of the opcode table with bits, and the row for the other codes. -/
theorem test_decode_table_words :
    decodeTableWord 8 0x03 = some (.readHoldingRegisters 1 (.complete 0 0 [] 0)) ∧
    decodeTableWord 8 0x10 = some (.writeMultipleRegisters 1 (.complete 0 0 0 [] none 0)) ∧
    decodeTableWord 8 0x00 = some (.illegalFunction 1 0x00 []) := by decide

/-- The first step after reset serves the table's word; its zero checksum is wrong, so R175 answers code 4 (section 2.5). -/
theorem test_step_table_words :
    answerOf (step (State.reset.withFetchWord 8 0x03)) = some (.respond [0x01, 0x83, 0x04, 0x40, 0xF3]) ∧
    answerOf (step (State.reset.withFetchWord 8 0x10)) = some (.respond [0x01, 0x90, 0x04, 0x4D, 0xC3]) ∧
    answerOf (step (State.reset.withFetchWord 8 0x06)) = some (.respond [0x01, 0x86, 0x01, 0x83, 0xA0]) := by
  decide +kernel

/-! ## One step or operation each, from the spec's vectors -/

/-- V-D02: the top register. -/
theorem test_read_top_register :
    answerOf (step (waitingFor [0x01, 0x03, 0x03, 0xE7, 0x00, 0x01, 0x34, 0x79] (withReg 999 0xBEEF)))
      = some (.respond [0x01, 0x03, 0x02, 0xBE, 0xEF, 0x88, 0x68]) := by decide +kernel

/-- V-D06: byteCount 256 does not fit. -/
theorem test_read_128_faults :
    answerOf (step (waitingFor [0x01, 0x03, 0x00, 0x00, 0x00, 0x80, 0x44, 0x6A])) = some (.fault .fieldOverflow) := by
  decide +kernel

/-- V-W02: the top of the bank, and the register below it unchanged. -/
theorem test_write_top_of_bank :
    answerOf (step (waitingFor
        [0x01, 0x10, 0x03, 0xE5, 0x00, 0x03, 0x06, 0x00, 0x01, 0x00, 0x02, 0x00, 0x03, 0x21, 0x83]))
      = some (.respond [0x01, 0x10, 0x03, 0xE5, 0x00, 0x03, 0x91, 0xBB]) ∧
    regsOf (step (waitingFor
        [0x01, 0x10, 0x03, 0xE5, 0x00, 0x03, 0x06, 0x00, 0x01, 0x00, 0x02, 0x00, 0x03, 0x21, 0x83])) [996, 997, 998, 999]
      = [0, 1, 2, 3] := by decide +kernel

/-- V-W05: step 4 of R160 alone fails. -/
theorem test_write_missing_value :
    answerOf (step (waitingFor [0x01, 0x10, 0x00, 0x00, 0x00, 0x03, 0x06, 0x00, 0x01, 0x00, 0x02, 0x5B, 0xBF]))
      = some (.respond [0x01, 0x90, 0x03, 0x0C, 0x01]) := by decide +kernel

/-- V-D21: no checksum test for an unknown function. -/
theorem test_illegal_ignores_checksum :
    answerOf (step (waitingFor [0x01, 0x06, 0x00, 0x01, 0x00, 0x03, 0x98, 0x0A]))
      = some (.respond [0x01, 0x86, 0x01, 0x83, 0xA0]) := by decide +kernel

/-- V-D23: bit 7 is already set. -/
theorem test_illegal_keeps_bit_seven :
    answerOf (step (waitingFor [0x01, 0x83, 0x00, 0x00, 0xF0, 0x30]))
      = some (.respond [0x01, 0x83, 0x01, 0x80, 0xF0]) := by decide +kernel

/-- V-C09. -/
theorem test_crc_compute_check_value :
    answerOf (exec (.crcCompute [0x31, 0x32, 0x33, 0x34, 0x35, 0x36, 0x37, 0x38, 0x39]) State.reset)
      = some (.checksum 0x4B37) := by decide +kernel

/-- V-C04. -/
theorem test_crc_compute_one_byte : answerOf (exec (.crcCompute [0x01]) State.reset) = some (.checksum 0x807E) := by
  decide +kernel

/-- Section 2.1, Validate. -/
theorem test_crc_validate_right :
    answerOf (exec (.crcValidate [0x01, 0x03, 0x00, 0x00, 0x00, 0x0A] 0xCDC5) State.reset) = some (.verdict true) := by
  decide +kernel

/-- Section 2.1, Validate: the bytes swapped. -/
theorem test_crc_validate_swapped :
    answerOf (exec (.crcValidate [0x01, 0x03, 0x00, 0x00, 0x00, 0x0A] 0xC5CD) State.reset) = some (.verdict false) := by
  decide +kernel

/-- V-E05. -/
theorem test_pdu_encode_widest_values :
    answerOf (exec (.pduEncode 0xFF 0xFF [.w2 0xFFFF, .b1 0]) State.reset)
      = some (.encoded [0xFF, 0xFF, 0xFF, 0xFF, 0x00, 0x71, 0xC0]) := by decide +kernel

/-- V-E06. -/
theorem test_pdu_encode_overflow :
    answerOf (exec (.pduEncode 0x01 0x03 [.b1 256]) State.reset) = some (.fault .fieldOverflow) := by decide +kernel

/-- V-X04: one surplus byte. -/
theorem test_pdu_decode_surplus :
    answerOf (exec (.pduDecode [0x01, 0x03, 0x00, 0x00, 0x00, 0x0A, 0x77, 0x4D, 0x75] [.two, .two]) State.reset)
      = some (.decoded (some { unitId := 0x01, functionId := 0x03, fields := [0, 10] })) := by decide +kernel

/-- V-X05. -/
theorem test_pdu_decode_short :
    answerOf (exec (.pduDecode [0x01, 0x03, 0x00, 0x00, 0x00, 0xC5, 0xCD] [.two, .two]) State.reset)
      = some (.fault .frameTooShort) := by decide +kernel

/-- V-D25: unit id 0 is no broadcast. -/
theorem test_entry_discards_unit_zero :
    answerOf (step (waitingFor [0x00, 0x03, 0x00, 0x00, 0x00, 0x01, 0x85, 0xDB])) = some .discard := by decide +kernel

/-- Program P4, step 3: no step while FAULTED is set. -/
theorem test_faulted_engine_stops :
    isNext (step (waitingFor [0x01, 0x06] { State.reset with faulted := true })) = false := by decide +kernel

/-- Section 3: the launch with an image of one value is refused (R241). -/
theorem test_boot_refuses_short_image : isNext (State.boot 1 (some [7])) = false := by decide +kernel

/-! ## Witnesses: for each statement with hypotheses, data that meet all of them together -/

theorem witness_DecodeInvertsEncode :
    (Instr.writeMultipleRegisters 1 (.complete 5 1 2 [0x1234] (some 9) 0xABCD)).wellFormed = true ∧
    encode (.writeMultipleRegisters 1 (.complete 5 1 2 [0x1234] (some 9) 0xABCD))
      = some [1, 0x10, 0, 5, 0, 1, 2, 0x12, 0x34, 9, 0xCD, 0xAB] := by decide

theorem witness_EncodeInvertsDecode : decode [1, 0x03, 9] = .ok (.readHoldingRegisters 1 (.short [9])) := by decide

theorem witness_PduEncodeEmitsFieldsAndChecksum :
    ∀ x ∈ [FieldSpec.b1 255, .w2 65535], (∀ v, x = .b1 v → v ≤ 255) ∧ (∀ v, x = .w2 v → v ≤ 65535) := by
  simp

theorem witness_PduEncodeFaultsOnOverflow_one_byte : FieldSpec.b1 256 ∈ [FieldSpec.b1 256] ∧ 255 < 256 := by decide

theorem witness_PduEncodeFaultsOnOverflow_two_bytes : FieldSpec.w2 65536 ∈ [FieldSpec.w2 65536] ∧ 65535 < 65536 := by
  decide

/-- V-X01: the shortest frame for its layout. -/
theorem witness_PduDecodeChecksThenWalks :
    2 + layoutBytes [.two, .two] + 2 ≤ ([0x01, 0x03, 0x00, 0x00, 0x00, 0x0A, 0xC5, 0xCD] : Frame).length := by decide

/-- V-X05: one byte less. -/
theorem witness_PduDecodeFaultsOnShortFrame :
    ([0x01, 0x03, 0x00, 0x00, 0x00, 0xC5, 0xCD] : Frame).length < 4 + layoutBytes [.two, .two] := by decide

theorem witness_DecodeOfEncodeRoundTrip : ∀ x ∈ [FieldSpec.b1 255, .w2 65535], fieldFits x = true := by decide

theorem witness_SurplusBytesAreNotDecoded : fieldsBytes [.w2 0, .w2 10] = some [0, 0, 0, 10] := by decide

/-- 127 registers at the top of the bank, with the checksum right by construction. -/
theorem witness_ReadAnswersWithRegisters :
    crc16 (readInput 1 873 127 []) = crc16 (readInput 1 873 127 []) ∧
    (873#16).toNat + (127#16).toNat ≤ 1000 ∧ (127#16).toNat ≤ 127 := ⟨rfl, by decide⟩

/-- V-D06 and V-D04: 128 and 1000 registers. -/
theorem witness_ReadOfTooManyRegistersFaults :
    0x6A44#16 = crc16 (readInput 1 0 128 []) ∧ (0#16).toNat + (128#16).toNat ≤ 1000 ∧ 128 ≤ (128#16).toNat ∧
    0x7445#16 = crc16 (readInput 1 0 1000 []) ∧ (0#16).toNat + (1000#16).toNat ≤ 1000 := by decide +kernel

/-- V-D10: and a quantity answered with a success response. -/
theorem witness_ReadOfTooManyRegistersFaults_success :
    0xCA45#16 = crc16 (readInput 1 0 0 []) ∧
    answerOf (exec (.readHoldingRegisters 1 (.complete 0 0 [] 0xCA45)) State.reset)
      = some (.respond [0x01, 0x03, 0x00, 0x20, 0xF0]) := by decide +kernel

/-- V-W11: a surplus odd byte. -/
theorem witness_WriteStoresSavesAndEchoes :
    0x6A93#16 = crc16 (writeInput 1 0 1 2 [5] (some 0xFF)) ∧ (0#16).toNat + (1#16).toNat ≤ 1000 ∧
    (2#8).toNat = 2 * (1#16).toNat ∧ [5#16].length = (1#16).toNat := by decide +kernel

/-- V-W14: the last valid range, start 1000 and quantity 0. -/
theorem witness_WriteStoresSavesAndEchoes_empty :
    0xF078#16 = crc16 (writeInput 1 1000 0 0 [] none) ∧ (1000#16).toNat + (0#16).toNat ≤ 1000 ∧
    (0#8).toNat = 2 * (0#16).toNat ∧ ([] : List Word).length = (0#16).toNat := by decide +kernel

/-- V-W04 (byteCount) and V-W05 (value count). -/
theorem witness_WriteWithWrongCountsGetsIllegalDataValue :
    0x4119#16 = crc16 (writeInput 1 0 3 4 [1, 2, 3] none) ∧ (4#8).toNat ≠ 2 * (3#16).toNat ∧
    0xBF5B#16 = crc16 (writeInput 1 0 3 6 [1, 2] none) ∧ [1#16, 2#16].length ≠ (3#16).toNat ∧
    (0#16).toNat + (3#16).toNat ≤ 1000 := by decide +kernel

/-- V-W11: success at length 10 + 2q. -/
theorem witness_WriteSucceedsExactlyOnMatchingLength :
    0x6A93#16 = crc16 (writeInput 1 0 1 2 [5] (some 0xFF)) ∧ (0#16).toNat + (1#16).toNat ≤ 1000 ∧
    (2#8).toNat = 2 * (1#16).toNat ∧
    isNext (exec (.writeMultipleRegisters 1 (.complete 0 1 2 [5] (some 0xFF) 0x6A93)) State.reset) = true := by
  decide +kernel

/-- V-W13. -/
theorem witness_LargeWriteGetsIllegalDataValue :
    (0#16).toNat + (128#16).toNat ≤ 1000 ∧ 128 ≤ (128#16).toNat := by decide

/-- V-W01. -/
theorem witness_RepeatedWriteIsIdempotent :
    answerOf (exec (.writeMultipleRegisters 1 (.complete 0 3 6 [10, 20, 30] none 0x8DBE)) State.reset)
      = some (.respond [0x01, 0x10, 0x00, 0x00, 0x00, 0x03, 0x80, 0x08]) := by decide +kernel

/-- (999, 2), (1001, 0) and (65535, 65535) of R155. -/
theorem witness_RangePastBankGetsIllegalDataAddress :
    ((999#16).toNat : Int) + (2#16).toNat - 1 > 999 ∧ ((1001#16).toNat : Int) + (0#16).toNat - 1 > 999 ∧
    ((65535#16).toNat : Int) + (65535#16).toNat - 1 > 999 := by decide

/-- V-D15 and V-W10. -/
theorem witness_WrongChecksumGetsChecksumFailure :
    0x8564#16 ≠ crc16 (readInput 1 998 5 []) ∧ 0x8DBF#16 ≠ crc16 (writeInput 1 0 3 6 [10, 20, 30] none) := by
  decide +kernel

/-- V-D19 (7 bytes) and V-W12 (8 bytes). -/
theorem witness_ShortRequestFaults :
    ([0x01, 0x03, 0x00, 0x00, 0x00, 0x0A, 0xC5] : Frame).length < 8 ∧
    ([0x01, 0x10, 0x00, 0x00, 0x00, 0x00, 0xC0, 0x09] : Frame).length < 9 := by decide

/-- V-D22. -/
theorem witness_ExceptionsArePrecise :
    encode (.illegalFunction 1 6 []) = some [1, 6] ∧
    answerOf (exec (.illegalFunction 1 6 []) State.reset) = some (.respond [0x01, 0x86, 0x01, 0x83, 0xA0]) := by
  decide +kernel

/-- A write that changes the bank (V-W11). -/
theorem witness_OnlySuccessfulWriteChangesBank :
    regsOf (exec (.writeMultipleRegisters 1 (.complete 0 1 2 [5] (some 0xFF) 0x6A93)) State.reset) [0] = [5] ∧
    readReg State.reset.bank 0 = 0 := by decide +kernel

theorem witness_StepRunsDecodedInstruction :
    State.reset.faulted = false ∧
    selectRequest 0 (waitingFor [0x01, 0x06]).waiting = some ({ requester := 7, frame := [0x01, 0x06] }, []) ∧
    ([0x01, 0x06] : Frame).head? = some State.reset.deviceId ∧ decode [0x01, 0x06] = .ok (.illegalFunction 1 6 []) := by
  decide

/-- V-D14 and V-D18. -/
theorem witness_EntryCheckFaultsOrDiscards :
    (waitingFor []).faulted = false ∧ (waitingFor []).waiting = [{ requester := 7, frame := [] }] ∧
    (waitingFor [0x02]).faulted = false ∧ (waitingFor [0x02]).waiting = [{ requester := 7, frame := [0x02] }] ∧
    0x02#8 ≠ (waitingFor [0x02]).deviceId := by decide

/-- V-D17. -/
theorem witness_OwnUnitIdAloneFaults :
    (waitingFor [0x01]).faulted = false ∧
    (waitingFor [0x01]).waiting = [{ requester := 7, frame := [(waitingFor [0x01]).deviceId] }] := by decide

/-- V-D17. -/
theorem witness_FaultStopsTheEngine :
    ({ State.reset with faulted := true } : State).faulted = true ∧ (waitingFor [0x01]).waiting ≠ [] ∧
    answerOf (step (waitingFor [0x01])) = some (.fault .frameTooShort) := by decide +kernel

theorem witness_IdleStepKeepsAllState : State.reset.faulted = false ∧ State.reset.waiting = [] := by decide

theorem witness_OneOutcomePerRequest :
    (waitingFor [0x01, 0x06]).waiting ≠ [] ∧ isNext (step (waitingFor [0x01, 0x06])) = true := by decide +kernel

theorem witness_StepAnswersByPriority :
    (waitingFor [0x01, 0x06]).faulted = false ∧
    (waitingFor [0x01, 0x06]).waiting = [{ requester := 7, frame := [0x01, 0x06] }] := by decide

/-- Two frames wait. -/
def twoWaiting : State := { State.reset with waiting := List.replicate 2 { requester := 7, frame := [0x02] } }

/-- Two frames for another unit: whichever is taken, the step answers a next state. -/
theorem witness_ServedFrameIsOneThatWaited : twoWaiting.waiting ≠ [] ∧ isNext (step twoWaiting) = true := by
  refine ⟨by decide, ?_⟩
  have h : ∀ k, (List.replicate 2 ({ requester := 7, frame := [0x02] } : Request)).getD k { requester := 7, frame := [0x02] }
      = { requester := 7, frame := [0x02] } := by
    intro k
    rcases k with _ | _ | k <;> rfl
  have hs : selectRequest 0 (List.replicate 2 { requester := 7, frame := [0x02] })
      = some ({ requester := 7, frame := [0x02] },
          (List.replicate 2 { requester := 7, frame := [0x02] }).eraseIdx (Config.serviceChoice 0 % 2)) := by
    have := h (Config.serviceChoice 0 % 2)
    simp only [List.replicate] at this ⊢
    simp only [selectRequest, List.length_cons, List.length_nil, Nat.zero_add, Nat.reduceAdd, this]
  rw [step]
  simp only [twoWaiting, State.reset, State.resetWith, Bool.false_eq_true, if_false, hs]
  rfl

theorem witness_RequesterIsInvisible : State.reset.faulted = false := by decide

/-- Scenario A of the source: three values at register 0. -/
theorem witness_ReadAfterWriteReturnsTheValues :
    State.reset.faulted = false ∧ State.reset.waiting = [] ∧ [10#16, 20#16, 30#16].length ≤ 127 ∧
    (0#16).toNat + [10#16, 20#16, 30#16].length ≤ 1000 ∧
    encode (asmWrite State.reset.deviceId 0 [10, 20, 30])
      = some [0x01, 0x10, 0x00, 0x00, 0x00, 0x03, 0x06, 0x00, 0x0A, 0x00, 0x14, 0x00, 0x1E, 0xBE, 0x8D] ∧
    encode (asmRead State.reset.deviceId 0 3) = some [0x01, 0x03, 0x00, 0x00, 0x00, 0x03, 0x05, 0xCB] := by
  decide +kernel

/-- A state that meets the three invariants with a Save and a response pending, and from which a step serves a frame. -/
def afterAWrite : State :=
  { State.reset with
    events := [.save Bank.zero, .respond (some 7) (sealFrame [State.reset.deviceId, 0x10, 0, 0, 0, 0])]
    waiting := [{ requester := 7, frame := [0x01, 0x06] }] }

theorem witness_StepKeepsDeviceId : isNext (step afterAWrite) = true := by decide +kernel

theorem witness_StepKeepsQuiescence : afterAWrite.Quiescent ∧ isNext (step afterAWrite) = true :=
  ⟨⟨rfl, rfl, rfl⟩, by decide +kernel⟩

theorem witness_StepKeepsResponsesSealed : afterAWrite.ResponsesSealed ∧ isNext (step afterAWrite) = true := by
  refine ⟨?_, by decide +kernel⟩
  intro dest r h
  simp only [afterAWrite, List.mem_cons, PortEvent.respond.injEq, reduceCtorEq, List.not_mem_nil, or_false, false_or] at h
  exact ⟨_, _, h.2⟩

theorem witness_StepKeepsSaveCurrent :
    afterAWrite.SaveCurrent ∧ lastSave afterAWrite.events = some Bank.zero ∧ isNext (step afterAWrite) = true := by
  refine ⟨?_, rfl, by decide +kernel⟩
  intro b h
  exact (Option.some.inj h).symm

/-- A valid image, and two that are not: too short, and a value of 17 bits. -/
theorem witness_StartupLeavesResetState :
    (List.replicate 1000 65535).length = 1000 ∧ (∀ v ∈ List.replicate 1000 65535, v ≤ 65535) ∧
    [7].length ≠ 1000 ∧ 65536 ∈ List.replicate 1000 65536 ∧ 65535 < 65536 :=
  ⟨List.length_replicate, fun v h => (List.eq_of_mem_replicate h).le, by decide,
    List.mem_replicate.mpr ⟨by decide, rfl⟩, by decide⟩

/-- V-D01 and V-W01 are cut at the lengths of R248. -/
theorem witness_CorrectlyFramedIsNeverTooShort :
    framerLength [0x01, 0x03, 0x00, 0x00, 0x00, 0x0A, 0xC5, 0xCD] = some 8 ∧
    framerLength [0x01, 0x10, 0x00, 0x00, 0x00, 0x03, 0x06, 0x00, 0x0A, 0x00, 0x14, 0x00, 0x1E, 0xBE, 0x8D] = some 15 ∧
    isNext (step (waitingFor [0x01, 0x03, 0x00, 0x00, 0x00, 0x0A, 0xC5, 0xCD])) = true := by decide +kernel

/-- V-W01 (even byteCount) and V-W08 (odd byteCount). -/
theorem witness_FramedWriteChecksAgree :
    framerLength (writeFrame 1 (.complete 0 3 6 [10, 20, 30] none 0x8DBE))
      = some (writeFrame 1 (.complete 0 3 6 [10, 20, 30] none 0x8DBE)).length ∧
    framerLength (writeFrame 1 (.complete 0 1 3 [5] (some 7) 0x1493))
      = some (writeFrame 1 (.complete 0 1 3 [5] (some 7) 0x1493)).length := by decide

end Sys2Proof.Tests
end

section
/-! Proofs of the scope statements (00_scope.md R15): every instruction completes, and a step that serves a request ends in
exactly one outcome. Both are read off the inversion lemmas `exec_ends` and `step_ends`. -/

namespace Sys2Proof.Proofs

open Sys2Proof Sys2Proof.Machine

/-- Settles O27: the inversion of `exec` names the next state it ends in. -/
theorem everyInstructionCompletes : Obligations.EveryInstructionCompletes := by
  intro i s
  obtain ⟨t, ht, _⟩ := exec_ends i s
  exact ⟨t, ht⟩

/-- No frame selects a component operation (R69). -/
theorem encode_ne_none_of_decode {f : Frame} {i : Instr} (h : decode f = .ok i) : encode i ≠ none := by
  match f with
  | [] => cases h
  | [_] => cases h
  | u :: fc :: body =>
    rw [decode] at h
    split_ifs at h <;> cases h <;> exact Option.some_ne_none _

theorem mem_of_selectRequest {n : Nat} {l rest : List Request} {r : Request}
    (h : selectRequest n l = some (r, rest)) : r ∈ l := by
  obtain ⟨before, after, rfl, _⟩ := selectRequest_some h
  simp

/-- Settles O34, by the ways a step that takes a request can end: a frame selects no component operation, so every end is a
response, a discard or a fault, and only a successful write puts a Save before its response. -/
theorem oneOutcomePerRequest : Obligations.OneOutcomePerRequest := by
  intro s t hwaiting hstep
  obtain ⟨hunfaulted, ⟨hnone, _⟩ | ⟨req, rest, hselected, hends⟩⟩ := step_ends hstep
  · exact absurd hnone hwaiting
  refine ⟨req, mem_of_selectRequest hselected, ?_⟩
  cases hends with
  | discard => exact .inr (.inl ⟨rfl, hunfaulted, rfl, rfl, rfl⟩)
  | tooShort => exact .inr (.inr ⟨.frameTooShort, rfl, rfl, rfl, rfl⟩)
  | ran i t fc body hframe hdecode hexec =>
    cases hexec with
    | component c answer hencode => exact absurd hencode (encode_ne_none_of_decode hdecode)
    | fault reason c => exact .inr (.inr ⟨reason, rfl, rfl, rfl, rfl⟩)
    | exception => exact .inl ⟨_, rfl, hunfaulted, .inl ⟨rfl, rfl⟩⟩
    | read => exact .inl ⟨_, rfl, hunfaulted, .inl ⟨rfl, rfl⟩⟩
    | write => exact .inl ⟨_, rfl, hunfaulted, .inr (List.append_assoc ..)⟩

end Sys2Proof.Proofs
end

section
/-! Proofs of the statements about the engine's state (10_state.md): what an instruction and a step keep, the CRC working
register, the stop at FAULTED, and reset. What is kept is read off the inversion lemmas `exec_ends` and `step_ends`. -/

namespace Sys2Proof.Proofs

open Sys2Proof Sys2Proof.Machine

/-! ## What an instruction changes (R21, R22, R28, R29) -/

theorem execEnds_frame {i : Instr} {s t : State} (h : ExecEnds i s t) :
    t.deviceId = s.deviceId ∧ t.busy = s.busy ∧ t.captured = s.captured ∧ t.waiting = s.waiting ∧
      t.served = s.served := by
  cases h <;> exact ⟨rfl, rfl, rfl, rfl, rfl⟩

theorem execEnds_keeps_faulted {i : Instr} {s t : State} (h : ExecEnds i s t) (hs : s.faulted = true) :
    t.faulted = true := by
  cases h with
  | fault => rfl
  | _ => exact hs

theorem execEnds_events_prefix {i : Instr} {s t : State} (h : ExecEnds i s t) : s.events <+: t.events := by
  cases h with
  | component | fault => exact List.prefix_rfl
  | exception | read => exact List.prefix_append ..
  | write => exact (List.prefix_append ..).trans (List.prefix_append ..)

/-- Settles O28, by the ways an instruction can end: only the end of a successful write has another bank. -/
theorem onlySuccessfulWriteChangesBank : Obligations.OnlySuccessfulWriteChangesBank := by
  intro i s t hexec
  have hends := ends_of_exec hexec
  obtain ⟨hid, hbusy, hcaptured, hwaiting, hserved⟩ := execEnds_frame hends
  refine ⟨hid, hbusy, hcaptured, hwaiting, hserved, execEnds_keeps_faulted hends, execEnds_events_prefix hends, ?_⟩
  intro hbank
  cases hends with
  | component | fault | exception | read => exact absurd rfl hbank
  | write u start quantity bc values odd c hi hcrc hrange hcount hlength =>
    subst hcrc
    exact ⟨u, start, quantity, bc, values, odd, hi, hrange, hcount, hlength, List.append_assoc ..⟩

/-! ## The CRC working register (R30, R104)

Each operation, from two states that differ in the working register alone, answers states that agree once the register is
overwritten. The operations that only overwrite it commute with the overwriting by definition. -/

theorem afterEncode_withCrc (u fn : Byte) (fields : List FieldSpec) (c d : Word) (s : State) :
    (afterEncode u fn fields (s.withCrc c)).withCrc d = (afterEncode u fn fields s).withCrc d := by
  rw [afterEncode, afterEncode]
  split <;> rfl

theorem afterDecode_withCrc (f : Frame) (layout : List Width) (c d : Word) (s : State) :
    (afterDecode f layout (s.withCrc c)).withCrc d = (afterDecode f layout s).withCrc d := by
  rw [afterDecode, afterDecode]
  split <;> rfl

theorem execPduEncode_withCrc (u fn : Byte) (fields : List FieldSpec) (c d : Word) (s : State) :
    mapNext (State.withCrc d) (execPduEncode u fn fields (s.withCrc c))
      = mapNext (State.withCrc d) (execPduEncode u fn fields s) := by
  have h := afterEncode_withCrc u fn fields c d s
  rw [execPduEncode, execPduEncode]
  cases pduEncode u fn fields with
  | ok f => exact congrArg (Host.Outcome.next ∘ State.answer (.encoded f)) h
  | error e => exact congrArg (Host.Outcome.next ∘ raiseFault e) h

theorem execPduDecode_withCrc (f : Frame) (layout : List Width) (c d : Word) (s : State) :
    mapNext (State.withCrc d) (execPduDecode f layout (s.withCrc c))
      = mapNext (State.withCrc d) (execPduDecode f layout s) := by
  have h := afterDecode_withCrc f layout c d s
  rw [execPduDecode, execPduDecode]
  cases pduDecode f layout with
  | ok p => exact congrArg (Host.Outcome.next ∘ State.answer (.decoded p)) h
  | error e => exact congrArg (Host.Outcome.next ∘ raiseFault e) h

/-- No instruction reads the working register. -/
theorem exec_withCrc (i : Instr) (c d : Word) (s : State) :
    mapNext (State.withCrc d) (exec i (s.withCrc c)) = mapNext (State.withCrc d) (exec i s) := by
  cases i with
  | readHoldingRegisters u req =>
    cases req with
    | short => rfl
    | complete => rw [exec, exec, execRead_complete, execRead_complete]; rfl
  | writeMultipleRegisters u req =>
    cases req with
    | short => rfl
    | complete => rw [exec, exec, execWrite_complete, execWrite_complete]; rfl
  | illegalFunction => rw [exec, exec, execIllegalFunction_eq, execIllegalFunction_eq]; rfl
  | crcCompute | crcValidate => rfl
  | pduEncode u fn fields => exact execPduEncode_withCrc u fn fields c d s
  | pduDecode f layout => exact execPduDecode_withCrc f layout c d s

theorem serveRequest_withCrc (r : Request) (c d : Word) (s : State) :
    mapNext (State.withCrc d) (serveRequest r (s.withCrc c)) = mapNext (State.withCrc d) (serveRequest r s) := by
  rw [serveRequest, serveRequest, withCrc_deviceId]
  cases entryCheck r.frame s.deviceId with
  | tooShort | discard => rfl
  | accept =>
    cases decode r.frame with
    | error => rfl
    | ok i => exact exec_withCrc i c d (s.toPhase .functionIdentified)

theorem mapNext_withCrc_finishRequest (d : Word) (o : Host.Outcome State Fault Refusal) :
    mapNext (State.withCrc d) (mapNext finishRequest o) = mapNext finishRequest (mapNext (State.withCrc d) o) := by
  cases o <;> rfl

/-- No step reads the working register. -/
theorem step_withCrc (c d : Word) (s : State) :
    mapNext (State.withCrc d) (step (s.withCrc c)) = mapNext (State.withCrc d) (step s) := by
  rw [step, step, withCrc_faulted, withCrc_served, withCrc_waiting]
  cases s.faulted with
  | true => rfl
  | false =>
    cases selectRequest s.served s.waiting with
    | none => rfl
    | some taken =>
      obtain ⟨r, rest⟩ := taken
      have h := congrArg (mapNext finishRequest) (serveRequest_withCrc r c d (captureRequest r rest s))
      rwa [← mapNext_withCrc_finishRequest, ← mapNext_withCrc_finishRequest] at h

/-- Settles O8, for the step and for each instruction. -/
theorem crcRegisterIsNeverRead : Obligations.CrcRegisterIsNeverRead :=
  fun s c => ⟨step_withCrc c 0#16 s, fun i => exec_withCrc i c 0#16 s⟩

/-! ## What a step keeps (R22, R26, R28, R29) -/

/-- Settles O32: of the three outcomes of a request, the one that answers a fault sets FAULTED. -/
theorem faultStopsTheEngine : Obligations.FaultStopsTheEngine := by
  refine ⟨fun s => step_of_faulted, ?_⟩
  intro s t reason hwaiting hstep hresult
  obtain ⟨_, _, ⟨r, hr, _⟩ | ⟨hdiscard, _⟩ | ⟨_, _, hfaulted, _⟩⟩ := oneOutcomePerRequest s t hwaiting hstep
  · simp [hr] at hresult
  · simp [hdiscard] at hresult
  · exact ⟨hfaulted, step_of_faulted hfaulted⟩

theorem serveEnds_deviceId {s t : State} {r : Request} {rest : List Request} (h : ServeEnds s r rest t) :
    t.deviceId = s.deviceId := by
  cases h with
  | discard | tooShort => rfl
  | ran i t fc body hframe hdecode hends => exact (execEnds_frame hends).1

/-- Settles O39, by the ways a step can end. -/
theorem stepKeepsDeviceId : Obligations.StepKeepsDeviceId := by
  intro s t hstep
  obtain ⟨_, ⟨_, rfl⟩ | ⟨r, rest, _, hends⟩⟩ := step_ends hstep
  · rfl
  · exact serveEnds_deviceId hends

theorem finishRequest_quiescent (s : State) : (finishRequest s).Quiescent := ⟨rfl, rfl, rfl⟩

/-- However a request ends, it is finished. -/
theorem serveEnds_quiescent {s t : State} {r : Request} {rest : List Request} (h : ServeEnds s r rest t) :
    t.Quiescent := by
  cases h <;> exact finishRequest_quiescent _

/-- Settles O40: an idle step keeps the state, and every other step finishes a request. -/
theorem stepKeepsQuiescence : Obligations.StepKeepsQuiescence := by
  intro s t hquiescent hstep
  obtain ⟨_, ⟨_, rfl⟩ | ⟨r, rest, _, hends⟩⟩ := step_ends hstep
  · exact hquiescent
  · exact serveEnds_quiescent hends

/-! ## Reset (R31, R242) -/

/-- No pending event, so no pending response and no pending Save. -/
theorem invariants_of_no_events {s : State} (h : s.events = []) : s.ResponsesSealed ∧ s.SaveCurrent := by
  constructor
  · intro dest r hmem
    simp [h] at hmem
  · intro b hsave
    simp [h, lastSave] at hsave

/-- Settles O43: at reset no event is pending, and the unit id is the one of entry 1. -/
theorem resetMeetsInvariants : Obligations.ResetMeetsInvariants := by
  obtain ⟨hsealed, hcurrent⟩ := invariants_of_no_events (s := State.reset) rfl
  exact ⟨⟨rfl, rfl, rfl⟩, hsealed, hcurrent, Config.deviceId, rfl⟩

end Sys2Proof.Proofs
end

section
/-! Proofs of the statements about the registers as the engine's memory (20_memory.md R47, R48, R51): a repeated write,
and a write followed by a read of the same registers. -/

namespace Sys2Proof.Proofs

open Sys2Proof Sys2Proof.Machine

/-! ## What a request that passes its checks does (R154, R160) -/

theorem exec_write_ok (u : Byte) {start quantity : Word} {bc : Byte} {values : List Word} (odd : Option Byte)
    (s : State) (hrange : start.toNat + quantity.toNat ≤ 1000) (hcount : bc.toNat = 2 * quantity.toNat)
    (hlength : values.length = quantity.toNat) :
    exec (.writeMultipleRegisters u
        (.complete start quantity bc values odd (crc16 (writeInput u start quantity bc values odd)))) s
      = .next ((emitSave { s with bank := memWrite s.bank start.toNat values }).afterResponse
          (u :: 0x10#8 :: (beBytes start ++ beBytes quantity))) := by
  rw [exec, execWrite_complete, if_pos rfl, if_pos hrange, if_pos ⟨hcount, hlength⟩]

theorem exec_asmWrite_ok (u : Byte) {start : Word} {values : List Word} (s : State)
    (hlength : values.length ≤ 127) (hrange : start.toNat + values.length ≤ 1000) :
    exec (asmWrite u start values) s
      = .next ((emitSave { s with bank := memWrite s.bank start.toNat values }).afterResponse
          (u :: 0x10#8 :: (beBytes start ++ beBytes (BitVec.ofNat 16 values.length)))) := by
  have hquantity : (BitVec.ofNat 16 values.length).toNat = values.length := Nat.mod_eq_of_lt (by omega)
  have hcount : (BitVec.ofNat 8 (2 * values.length)).toNat = 2 * values.length := Nat.mod_eq_of_lt (by omega)
  exact exec_write_ok u none s (by rwa [hquantity]) (by rw [hcount, hquantity]) hquantity.symm

theorem exec_asmRead_ok (u : Byte) {start : Word} {n : Nat} (s : State) (hn : n ≤ 127)
    (hrange : start.toNat + n ≤ 1000) :
    exec (asmRead u start (BitVec.ofNat 16 n)) s
      = .next (s.afterResponse (u :: 0x03#8 :: BitVec.ofNat 8 (2 * n) :: registerBytes s.bank start.toNat n)) := by
  have hquantity : (BitVec.ofNat 16 n).toNat = n := Nat.mod_eq_of_lt (by omega)
  rw [asmRead, exec, execRead_complete, if_pos rfl, hquantity, if_pos hrange, if_pos hn]

/-! ## A repeated write (R48) -/

/-- A 0x10 response is the end of a successful write: an exception to a 0x10 request has function code 0x90. -/
theorem write_succeeded_of_result {u : Byte} {req : WriteRequest} {s t : State} {r : Frame}
    (hexec : exec (.writeMultipleRegisters u req) s = .next t) (hresult : t.result = some (.respond r))
    (hfunction : r.getD 1 0#8 = 0x10#8) :
    ∃ start quantity bc values odd,
      req = .complete start quantity bc values odd (crc16 (writeInput u start quantity bc values odd)) ∧
      start.toNat + quantity.toNat ≤ 1000 ∧ bc.toNat = 2 * quantity.toNat ∧ values.length = quantity.toNat := by
  cases ends_of_exec hexec with
  | component c answer hencode => cases hencode
  | fault => cases hresult
  | exception f code hframe =>
    cases hframe
    cases hresult
    exact absurd (show Config.fcWrite ||| 0x80#8 = 0x10#8 from hfunction) (by decide)
  | read u' start quantity surplus c hi => cases hi
  | write u' start quantity bc values odd c hi hcrc hrange hcount hlength =>
    cases hi
    subst hcrc
    exact ⟨start, quantity, bc, values, odd, rfl, hrange, hcount, hlength⟩

/-- Settles O21: the 0x10 response says that the write passed its checks, which do not read the bank, so it passes them
again; the same values written twice are the values written once. -/
theorem repeatedWriteIsIdempotent : Obligations.RepeatedWriteIsIdempotent := by
  intro u req s t r hexec hresult hfunction
  obtain ⟨start, quantity, bc, values, odd, rfl, hrange, hcount, hlength⟩ :=
    write_succeeded_of_result hexec hresult hfunction
  have hwrite := exec_write_ok u odd s hrange hcount hlength
  rw [hexec] at hwrite
  cases hwrite
  cases hresult
  rw [exec_write_ok u odd _ hrange hcount hlength, afterResponse_bank, emitSave_bank, memWrite_memWrite]
  simp [State.afterResponse, emitSave]

/-! ## A frame delivered and served (R150, R216) -/

/-- The one waiting frame is taken, and the end of its instruction is finished. -/
theorem step_deliver {s t : State} {r : Request} {i : Instr} (hfaulted : s.faulted = false) (hwaiting : s.waiting = [])
    (haccept : entryCheck r.frame s.deviceId = .accept) (hdecode : decode r.frame = .ok i)
    (hexec : exec i (s.serving r []) = .next t) : step (s.deliver r) = .next (finishRequest t) := by
  have hselected : selectRequest (s.deliver r).served (s.deliver r).waiting = some (r, []) := by
    simp [hwaiting, selectRequest]
  have hcapture : captureRequest r [] (s.deliver r) = captureRequest r [] s := rfl
  rw [step_of_selected (s := s.deliver r) hfaulted hselected, hcapture, serveRequest]
  simp only [captureRequest_deviceId, haccept, hdecode, hexec, mapNext]

theorem decode_readFrame_complete (u : Byte) (start quantity : Word) (surplus : List Byte) (c : Word) :
    decode (readFrame u (.complete start quantity surplus c))
      = .ok (.readHoldingRegisters u (.complete start quantity surplus c)) := by
  simp [readFrame, encodeRead, decode, decodeRead, beBytes, splitCrc_append_leBytes]

theorem decode_writeFrame_complete (u : Byte) (start quantity : Word) (bc : Byte) (values : List Word)
    (odd : Option Byte) (c : Word) :
    decode (writeFrame u (.complete start quantity bc values odd c))
      = .ok (.writeMultipleRegisters u (.complete start quantity bc values odd c)) := by
  have hbody : encodeWrite (.complete start quantity bc values odd c)
      = hiByte start :: loByte start :: hiByte quantity :: loByte quantity :: bc
        :: ((values.flatMap beBytes ++ odd.toList) ++ leBytes c) := by
    simp [encodeWrite, beBytes]
  rw [writeFrame, hbody, decode, if_neg (by decide), if_pos rfl]
  simp only [decodeWrite, splitCrc_append_leBytes, splitValues_flatMap_append, wordOf_hiByte_loByte]

/-- Every frame of the notation `WRITE` or `READ` is for the unit it names. -/
theorem entryCheck_own (u : Byte) (more : List Byte) : entryCheck (u :: more) u = .accept := if_pos rfl

theorem step_deliver_write {s : State} {start : Word} {values : List Word} {f : Frame} (a : Nat)
    (hfaulted : s.faulted = false) (hwaiting : s.waiting = []) (hlength : values.length ≤ 127)
    (hrange : start.toNat + values.length ≤ 1000) (hframe : encode (asmWrite s.deviceId start values) = some f) :
    step (s.deliver { requester := a, frame := f }) = .next (finishRequest
      ((emitSave { s.serving { requester := a, frame := f } [] with
          bank := memWrite s.bank start.toNat values }).afterResponse
        (s.deviceId :: 0x10#8 :: (beBytes start ++ beBytes (BitVec.ofNat 16 values.length))))) := by
  cases hframe
  exact step_deliver hfaulted hwaiting (entryCheck_own ..) (decode_writeFrame_complete ..)
    (exec_asmWrite_ok s.deviceId _ hlength hrange)

theorem step_deliver_read {s : State} {start : Word} {n : Nat} {f : Frame} (a : Nat)
    (hfaulted : s.faulted = false) (hwaiting : s.waiting = []) (hn : n ≤ 127) (hrange : start.toNat + n ≤ 1000)
    (hframe : encode (asmRead s.deviceId start (BitVec.ofNat 16 n)) = some f) :
    step (s.deliver { requester := a, frame := f }) = .next (finishRequest
      ((s.serving { requester := a, frame := f } []).afterResponse
        (s.deviceId :: 0x03#8 :: BitVec.ofNat 8 (2 * n) :: registerBytes s.bank start.toNat n))) := by
  cases hframe
  exact step_deliver hfaulted hwaiting (entryCheck_own ..) (decode_readFrame_complete ..)
    (exec_asmRead_ok s.deviceId _ hn hrange)

/-- Settles O38: the write leaves no frame waiting and FAULTED 0, so the read is served next, from the bank after the
writes, where a read of the registers just written gives the values. -/
theorem readAfterWriteReturnsTheValues : Obligations.ReadAfterWriteReturnsTheValues := by
  intro s start values fw fr a b hfaulted hwaiting hlength hrange hwrite hread
  have hvalues : registerBytes (memWrite s.bank start.toNat values) start.toNat values.length
      = values.flatMap beBytes := by
    rw [← memRead_flatMap_beBytes, memRead_memWrite values s.bank start.toNat hrange]
  refine ⟨_, _, step_deliver_write a hfaulted hwaiting hlength hrange hwrite,
    step_deliver_read b hfaulted rfl hlength hrange hread, rfl, ?_⟩
  simp [hvalues, sealFrame_eq]

end Sys2Proof.Proofs
end

section
/-! Proofs of the statements about the encoding (30_encoding.md): the decoder and the encoder are inverse to each other
(R61, R63, R69), the function code selects the operation, a read is answered in its format (R62), and every pending response
is a sealed frame of this unit (R60, R171). -/

namespace Sys2Proof.Proofs

open Sys2Proof Sys2Proof.Machine

/-! ## What byte 1 selects (R69) -/

theorem decode_read (u : Byte) (body : List Byte) :
    decode (u :: Config.fcRead :: body) = .ok (.readHoldingRegisters u (decodeRead body)) := rfl

theorem decode_write (u : Byte) (body : List Byte) :
    decode (u :: Config.fcWrite :: body) = .ok (.writeMultipleRegisters u (decodeWrite body)) := rfl

theorem decode_other (u : Byte) {fc : Byte} (body : List Byte) (hread : fc ≠ Config.fcRead)
    (hwrite : fc ≠ Config.fcWrite) : decode (u :: fc :: body) = .ok (.illegalFunction u fc body) := by
  rw [decode, if_neg hread, if_neg hwrite]

/-- The three ways a frame with a function code decodes. -/
theorem decode_cases (u fc : Byte) (body : List Byte) :
    fc = Config.fcRead ∧ decode (u :: fc :: body) = .ok (.readHoldingRegisters u (decodeRead body)) ∨
    fc = Config.fcWrite ∧ decode (u :: fc :: body) = .ok (.writeMultipleRegisters u (decodeWrite body)) ∨
    (fc ≠ Config.fcRead ∧ fc ≠ Config.fcWrite) ∧ decode (u :: fc :: body) = .ok (.illegalFunction u fc body) := by
  by_cases hread : fc = Config.fcRead
  · exact .inl ⟨hread, hread ▸ decode_read u body⟩
  · by_cases hwrite : fc = Config.fcWrite
    · exact .inr (.inl ⟨hwrite, hwrite ▸ decode_write u body⟩)
    · exact .inr (.inr ⟨⟨hread, hwrite⟩, decode_other u body hread hwrite⟩)

/-- Only bytes 0 and 1 are looked for: without one of them there is no instruction (R151, R152). -/
theorem decode_error_iff (f : Frame) : f.length < 2 ↔ ∃ e, decode f = .error e := by
  match f with
  | [] => exact ⟨fun _ => ⟨.noUnitId, rfl⟩, fun _ => by simp⟩
  | [_] => exact ⟨fun _ => ⟨.noFunctionCode, rfl⟩, fun _ => by simp⟩
  | u :: fc :: body =>
    constructor
    · intro h
      simp at h
    · rintro ⟨e, he⟩
      obtain ⟨-, h⟩ | ⟨-, h⟩ | ⟨-, h⟩ := decode_cases u fc body <;> cases h.symm.trans he

/-- Settles O3: the three ways a frame with a function code decodes give three different constructors. -/
theorem functionCodeSelectsOperation : Obligations.FunctionCodeSelectsOperation := by
  refine ⟨decode_error_iff, fun u fc body => ?_⟩
  obtain ⟨rfl, h⟩ | ⟨rfl, h⟩ | ⟨⟨hread, hwrite⟩, h⟩ := decode_cases u fc body
  · simp [h, show Config.fcRead ≠ 0x10#8 by decide]
  · simp [h, show Config.fcWrite ≠ 0x03#8 by decide]
  · simp [h, hread, hwrite]

/-- Settles O4, by running the decoder on the three frames. -/
theorem specFramesDecode : Obligations.SpecFramesDecode := by
  unfold Obligations.SpecFramesDecode
  decide

/-! ## Decoding what was encoded (R61, R63, R68, R73) -/

theorem splitCrc_eq_none {l : List Byte} (h : l.length < 2) : splitCrc l = none := by
  match l with
  | [] => rfl
  | [_] => rfl
  | _ :: _ :: _ => simp at h

/-- A body with no room for start, quantity and checksum stays as it is (R154). -/
theorem decodeRead_short {body : List Byte} (h : body.length < 6) : decodeRead body = .short body := by
  fun_cases decodeRead body with
  | case1 sh sl qh ql rest surplus c hsplit =>
    rw [splitCrc_eq_none (by simp at h; omega)] at hsplit
    cases hsplit
  | case2 => rfl
  | case3 => rfl

/-- A body with no room for start, quantity, byteCount and checksum stays as it is (R160). -/
theorem decodeWrite_short {body : List Byte} (h : body.length < 7) : decodeWrite body = .short body := by
  fun_cases decodeWrite body with
  | case1 sh sl qh ql bc rest data c hsplit =>
    rw [splitCrc_eq_none (by simp at h; omega)] at hsplit
    cases hsplit
  | case2 => rfl
  | case3 => rfl

theorem decode_readFrame {req : ReadRequest} (u : Byte) (h : req.wellFormed = true) :
    decode (readFrame u req) = .ok (.readHoldingRegisters u req) := by
  cases req with
  | complete start quantity surplus c => exact decode_readFrame_complete u start quantity surplus c
  | short body => rw [readFrame, encodeRead, decode_read, decodeRead_short (of_decide_eq_true h)]

theorem decode_writeFrame {req : WriteRequest} (u : Byte) (h : req.wellFormed = true) :
    decode (writeFrame u req) = .ok (.writeMultipleRegisters u req) := by
  cases req with
  | complete start quantity bc values odd c => exact decode_writeFrame_complete u start quantity bc values odd c
  | short body => rw [writeFrame, encodeWrite, decode_write, decodeWrite_short (of_decide_eq_true h)]

/-- Settles O1, by the rows that have a frame. -/
theorem decodeInvertsEncode : Obligations.DecodeInvertsEncode := by
  intro i f hwf hframe
  cases i with
  | readHoldingRegisters u req =>
    cases hframe
    exact decode_readFrame u hwf
  | writeMultipleRegisters u req =>
    cases hframe
    exact decode_writeFrame u hwf
  | illegalFunction u fc rest =>
    cases hframe
    obtain ⟨hread, hwrite⟩ : fc ≠ Config.fcRead ∧ fc ≠ Config.fcWrite := by simpa [Instr.wellFormed] using hwf
    exact decode_other u rest hread hwrite
  | crcCompute | crcValidate | pduEncode | pduDecode => cases hframe

/-! ## Encoding what was decoded -/

@[simp] theorem beBytes_wordOf (hi lo : Byte) : beBytes (wordOf hi lo) = [hi, lo] := by
  simp [beBytes]

/-- The fields read from a 0x03 frame stand for its bytes. -/
theorem encodeRead_decodeRead (body : List Byte) : encodeRead (decodeRead body) = body := by
  fun_cases decodeRead body with
  | case1 sh sl qh ql rest surplus c hsplit =>
    simp [encodeRead, eq_append_of_splitCrc_eq_some hsplit]
  | case2 => rfl
  | case3 => rfl

/-- The fields read from a 0x10 frame stand for its bytes, the odd last one included (R73). -/
theorem encodeWrite_decodeWrite (body : List Byte) : encodeWrite (decodeWrite body) = body := by
  fun_cases decodeWrite body with
  | case1 sh sl qh ql bc rest data c hsplit =>
    have hdata := eq_of_splitValues data
    simp [encodeWrite, eq_append_of_splitCrc_eq_some hsplit, -List.append_assoc, ← hdata]
  | case2 => rfl
  | case3 => rfl

theorem decodeRead_wellFormed (body : List Byte) : (decodeRead body).wellFormed = true := by
  fun_cases decodeRead body with
  | case1 => rfl
  | case2 sh sl qh ql rest hsplit =>
    have hrest := length_lt_of_splitCrc_eq_none hsplit
    simp [ReadRequest.wellFormed, Config.readReqLen]
    omega
  | case3 _ hshort =>
    match body, hshort with
    | [], _ | [_], _ | [_, _], _ | [_, _, _], _ => rfl
    | sh :: sl :: qh :: ql :: rest, hshort => exact (hshort sh sl qh ql rest rfl).elim

theorem decodeWrite_wellFormed (body : List Byte) : (decodeWrite body).wellFormed = true := by
  fun_cases decodeWrite body with
  | case1 => rfl
  | case2 sh sl qh ql bc rest hsplit =>
    have hrest := length_lt_of_splitCrc_eq_none hsplit
    simp [WriteRequest.wellFormed, Config.writeReqMinLen]
    omega
  | case3 _ hshort =>
    match body, hshort with
    | [], _ | [_], _ | [_, _], _ | [_, _, _], _ | [_, _, _, _], _ => rfl
    | sh :: sl :: qh :: ql :: bc :: rest, hshort => exact (hshort sh sl qh ql bc rest rfl).elim

/-- Settles O2, by what byte 1 selects. -/
theorem encodeInvertsDecode : Obligations.EncodeInvertsDecode := by
  intro f i hdecode
  match f with
  | [] => cases hdecode
  | [_] => cases hdecode
  | u :: fc :: body =>
    obtain ⟨rfl, h⟩ | ⟨rfl, h⟩ | ⟨hother, h⟩ := decode_cases u fc body <;> cases h.symm.trans hdecode
    · exact ⟨by rw [encode, readFrame, encodeRead_decodeRead], decodeRead_wellFormed body⟩
    · exact ⟨by rw [encode, writeFrame, encodeWrite_decodeWrite], decodeWrite_wellFormed body⟩
    · exact ⟨rfl, by simpa [Instr.wellFormed] using hother⟩

/-! ## The answer to a read (R62) -/

@[simp] theorem registerBytes_length (b : Bank) (start n : Nat) : (registerBytes b start n).length = 2 * n := by
  rw [← memRead_flatMap_beBytes, flatMap_beBytes_length, memRead_length]

/-- Settles O15, by the one lemma about what a complete 0x03 request does. -/
theorem readAnswersWithRegisters : Obligations.ReadAnswersWithRegisters := by
  intro u start quantity surplus crcRx s hcrc hrange hquantity
  refine ⟨_, rfl, ?_, ?_⟩
  · simp
    omega
  · rw [exec, execRead_complete, if_pos hcrc.symm, if_pos hrange, if_pos hquantity]
    rfl

/-! ## Sealed responses (R60, R123, R171) -/

theorem responsesSealed_emitSave {s : State} (h : s.ResponsesSealed) : (emitSave s).ResponsesSealed := by
  intro dest r hmem
  rw [emitSave_events, List.mem_append] at hmem
  obtain hmem | hmem := hmem
  · exact h dest r hmem
  · simp at hmem

/-- A response that begins with this unit's id keeps the pending ones sealed. -/
theorem responsesSealed_afterResponse {s : State} (fc : Byte) (body : List Byte) (h : s.ResponsesSealed) :
    (s.afterResponse (s.deviceId :: fc :: body)).ResponsesSealed := by
  intro dest r hmem
  rw [afterResponse_events, List.mem_append] at hmem
  obtain hmem | hmem := hmem
  · exact h dest r hmem
  · simp only [List.mem_singleton, PortEvent.respond.injEq] at hmem
    exact ⟨fc, body, hmem.2⟩

/-- Every response begins with byte 0 of the instruction's frame, so an instruction for this unit keeps the pending
responses sealed. -/
theorem execEnds_responsesSealed {i : Instr} {s t : State} {more : List Byte} (hends : ExecEnds i s t)
    (hframe : encode i = some (s.deviceId :: more)) (h : s.ResponsesSealed) : t.ResponsesSealed := by
  cases hends with
  | component | fault => exact h
  | exception f code hf =>
    cases hf.symm.trans hframe
    exact responsesSealed_afterResponse _ _ h
  | read u start quantity surplus c hi =>
    subst hi
    cases hframe
    exact responsesSealed_afterResponse _ _ h
  | write u start quantity bc values odd c hi =>
    subst hi
    cases hframe
    exact responsesSealed_afterResponse _ _ (responsesSealed_emitSave h)

/-- EntryCheck lets through only frames whose byte 0 is DEVICE_ID (R151), and the instruction run stands for that frame. -/
theorem serveEnds_responsesSealed {s t : State} {r : Request} {rest : List Request} (hends : ServeEnds s r rest t)
    (h : s.ResponsesSealed) : t.ResponsesSealed := by
  cases hends with
  | discard | tooShort => exact h
  | ran i t fc body hframe hdecode hexec =>
    obtain ⟨hencode, -⟩ := encodeInvertsDecode r.frame i hdecode
    rw [hframe] at hencode
    have hsealed : t.ResponsesSealed := execEnds_responsesSealed hexec hencode h
    exact hsealed

/-- Settles O41, by the ways a step can end. -/
theorem stepKeepsResponsesSealed : Obligations.StepKeepsResponsesSealed := by
  intro s t hsealed hstep
  obtain ⟨_, ⟨_, rfl⟩ | ⟨r, rest, _, hends⟩⟩ := step_ends hstep
  · exact hsealed
  · exact serveEnds_responsesSealed hends hsealed

end Sys2Proof.Proofs
end

section
/-! Proofs of the statements about the Checksum Engine (41_checksum_engine.md): what the two operations answer, the byte
and bit steps, and the residue. -/

namespace Sys2Proof.Proofs

open Sys2Proof Sys2Proof.Machine

/-! ## The bit steps and the byte steps (R100, R101, R102) -/

theorem crcBit_eq_ite (x : Word) : crcBit x = if x &&& 1#16 = 1#16 then (x >>> 1) ^^^ 0xA001#16 else x >>> 1 := by
  have hbit : x.getLsbD 0 = true ↔ x &&& 1#16 = 1#16 := by
    rw [BitVec.and_one_eq_setWidth_ofBool_getLsbD]
    cases x.getLsbD 0 <;> decide
  simp only [crcBit, hbit]

theorem crcBit_of_bit_zero {x : Word} (h : x.getLsbD 0 = false) : crcBit x = x >>> 1 := by
  rw [crcBit, h]
  rfl

theorem crcBits_eq_iterate (n : Nat) (x : Word) : crcBits n x = crcBit^[n] x := by
  induction n generalizing x with
  | zero => rfl
  | succ n ih => rw [crcBits, ih, Function.iterate_succ_apply]

/-- Where no bit step meets a set bit, the polynomial never enters: the steps are one shift. -/
theorem crcBits_of_low_bits_zero {n : Nat} {x : Word} (h : ∀ k < n, x.getLsbD k = false) : crcBits n x = x >>> n := by
  induction n generalizing x with
  | zero => simp [crcBits]
  | succ n ih =>
    have hshift : ∀ k < n, (x >>> 1).getLsbD k = false := fun k hk => by
      rw [BitVec.getLsbD_ushiftRight]
      exact h (1 + k) (by omega)
    rw [crcBits, crcBit_of_bit_zero (h 0 (by omega)), ih hshift, ← BitVec.shiftRight_add, Nat.add_comm]

theorem crc16_append_singleton (bytes : List Byte) (b : Byte) : crc16 (bytes ++ [b]) = crcByte (crc16 bytes) b := by
  simp [crc16]

/-! ## What the two operations answer (R100, R103) -/

theorem exec_crcCompute (bytes : List Byte) (s : State) :
    exec (.crcCompute bytes) s = .next { s with crc := crc16 bytes, result := some (.checksum (crc16 bytes)) } := rfl

theorem exec_crcValidate (bytes : List Byte) (expected : Word) (s : State) :
    exec (.crcValidate bytes expected) s
      = .next { s with crc := crc16 bytes, result := some (.verdict (decide (crc16 bytes = expected))) } := rfl

/-- The worked example of R100. -/
theorem crc16_worked_example : crc16 [0x01, 0x03, 0x00, 0x00, 0x00, 0x0A] = 0xCDC5#16 := by decide +kernel

/-- Settles O5, by the checksum's recursion from the right and the bit step written with a mask. -/
theorem crcComputeFollowsByteAndBitSteps : Obligations.CrcComputeFollowsByteAndBitSteps := by
  intro s
  refine ⟨fun _ => rfl, exec_crcCompute [] s, ?_, fun bytes b => ?_⟩
  · rw [exec_crcCompute, crc16_worked_example]
  · refine ⟨crc16 bytes, crc16 (bytes ++ [b]), exec_crcCompute bytes s, exec_crcCompute (bytes ++ [b]) s, ?_⟩
    rw [crc16_append_singleton, crcByte, crcBits_eq_iterate, ← funext crcBit_eq_ite]

/-- Settles O6: both operations work with the one checksum of the bytes. -/
theorem crcValidateComparesComputed : Obligations.CrcValidateComparesComputed :=
  fun bytes expected s => ⟨crc16 bytes, exec_crcCompute bytes s, exec_crcValidate bytes expected s⟩

/-! ## The residue (R105) -/

/-- XORing in its own low byte clears the low byte of the running value, so the bit steps only move the high byte down. -/
theorem crcByte_loByte (c : Word) : crcByte c (loByte c) = (hiByte c).setWidth 16 := by
  have hlow : ∀ k < 8, (c ^^^ (loByte c).setWidth 16).getLsbD k = false := fun k hk => by
    simp [loByte, hk, show k < 16 by omega]
  rw [crcByte, crcBits_of_low_bits_zero hlow]
  ext k hk
  have hhigh : c.getLsbD (8 + k) = true → k < 8 := fun h => by
    have := BitVec.lt_of_getLsbD h
    omega
  simpa [loByte, hiByte] using hhigh

/-- A running value that is the next byte itself is cancelled by it. -/
theorem crcByte_setWidth_self (b : Byte) : crcByte (b.setWidth 16) b = 0#16 := by
  rw [crcByte, BitVec.xor_self, crcBits_of_low_bits_zero (by simp), BitVec.zero_ushiftRight]

/-- Settles O7: the low byte leaves the high byte alone in the register, and the high byte then cancels it. -/
theorem sealedBytesHaveZeroResidue : Obligations.SealedBytesHaveZeroResidue := by
  intro m
  rw [List.append_cons, crc16_append_singleton, crc16_append_singleton, crcByte_loByte, crcByte_setWidth_self]

end Sys2Proof.Proofs
end

section
/-! Proofs of the statements about the PDU Codec (42_pdu_codec.md): the frame Encode answers and its overflow fault, what
Decode reads of a frame and its length fault, and that Decode inverts Encode. -/

namespace Sys2Proof.Proofs

open Sys2Proof Sys2Proof.Machine

/-! ## What the two operations do (R121, R122, R124, R125) -/

theorem exec_pduEncode_ok (u fn : Byte) {fields : List FieldSpec} {bytes : List Byte}
    (h : fieldsBytes fields = some bytes) (s : State) :
    exec (.pduEncode u fn fields) s
      = .next { s with
          crc := crc16 (u :: fn :: bytes), result := some (.encoded (sealFrame (u :: fn :: bytes))) } := by
  rw [exec, execPduEncode, pduEncode_ok h]
  simp only [afterEncode_ok h]
  rfl

theorem exec_pduEncode_overflow (u fn : Byte) {fields : List FieldSpec} (h : fieldsBytes fields = none) (s : State) :
    exec (.pduEncode u fn fields) s = .next (s.afterFault .fieldOverflow s.crc) := by
  rw [exec, execPduEncode, pduEncode_error h]
  simp only [afterEncode_error h, raiseFault_eq]

theorem fitsLayout_iff (f : Frame) (layout : List Width) :
    fitsLayout f layout = true ↔ 2 + layoutBytes layout + 2 ≤ f.length := decide_eq_true_iff

theorem exec_pduDecode_fits {f : Frame} {layout : List Width} (h : 2 + layoutBytes layout + 2 ≤ f.length) (s : State) :
    exec (.pduDecode f layout) s
      = .next { s with
          crc := crc16 (coveredBytes f)
          result := some (.decoded
            (if crc16 (coveredBytes f) = receivedCrc f then
              some { unitId := f.getD 0 0#8, functionId := f.getD 1 0#8, fields := walkFields f 2 layout }
            else none)) } := by
  have hfits := (fitsLayout_iff f layout).2 h
  rw [exec, execPduDecode, pduDecode, afterDecode, if_pos hfits, if_pos hfits]
  by_cases hcrc : crc16 (coveredBytes f) = receivedCrc f
  · rw [if_pos hcrc, if_pos hcrc]
    rfl
  · rw [if_neg hcrc, if_neg hcrc]
    rfl

theorem exec_pduDecode_short {f : Frame} {layout : List Width} (h : f.length < 2 + layoutBytes layout + 2) (s : State) :
    exec (.pduDecode f layout) s = .next (s.afterFault .frameTooShort s.crc) := by
  have hshort : ¬ fitsLayout f layout = true := by
    rw [fitsLayout_iff]
    omega
  rw [exec, execPduDecode, pduDecode, afterDecode, if_neg hshort, if_neg hshort]
  rfl

/-! ## The bytes of the fields (R42, R67) -/

theorem fieldFits_iff (x : FieldSpec) :
    fieldFits x = true ↔ (∀ v, x = .b1 v → v ≤ 255) ∧ (∀ v, x = .w2 v → v ≤ 65535) := by
  cases x <;> simp [fieldFits]

theorem beBytes_ofNat (v : Nat) : beBytes (BitVec.ofNat 16 v) = wireBytes (.w2 v) := by
  have hhi : hiByte (BitVec.ofNat 16 v) = BitVec.ofNat 8 (v / 256) := by
    apply BitVec.eq_of_toNat_eq
    rw [hiByte_toNat, BitVec.toNat_ofNat, BitVec.toNat_ofNat]
    omega
  have hlo : loByte (BitVec.ofNat 16 v) = BitVec.ofNat 8 (v % 256) := by
    apply BitVec.eq_of_toNat_eq
    rw [loByte_toNat, BitVec.toNat_ofNat, BitVec.toNat_ofNat]
    omega
  rw [beBytes, hhi, hlo, wireBytes]

theorem fieldBytes_eq_wireBytes {x : FieldSpec} (h : fieldFits x = true) : fieldBytes x = some (wireBytes x) := by
  cases x with
  | b1 v => exact fieldBytes_b1 v (of_decide_eq_true h)
  | w2 v => rw [fieldBytes_w2 v (of_decide_eq_true h), beBytes_ofNat]

theorem fieldsBytes_eq_flatMap_wireBytes {fields : List FieldSpec} (h : ∀ x ∈ fields, fieldFits x = true) :
    fieldsBytes fields = some (fields.flatMap wireBytes) := by
  induction fields with
  | nil => rfl
  | cons x xs ih =>
    obtain ⟨hx, hxs⟩ := List.forall_mem_cons.1 h
    exact fieldsBytes_cons_of_some (fieldBytes_eq_wireBytes hx) (ih hxs)

theorem fieldsBytes_eq_none {fields : List FieldSpec} {x : FieldSpec} (hmem : x ∈ fields) (hx : ¬ fieldFits x = true) :
    fieldsBytes fields = none := by
  rw [← Option.not_isSome_iff_eq_none, fieldsBytes_isSome, List.all_eq_true]
  exact fun h => hx (h x hmem)

/-- Settles O9: fields inside their widths have their wire bytes as field bytes. -/
theorem pduEncodeEmitsFieldsAndChecksum : Obligations.PduEncodeEmitsFieldsAndChecksum := by
  intro u fn fields s hfits
  have hbytes := fieldsBytes_eq_flatMap_wireBytes fun x hx => (fieldFits_iff x).2 (hfits x hx)
  have hlength := fieldsBytes_length hbytes
  refine ⟨_, rfl, ?_, exec_pduEncode_ok u fn hbytes s⟩
  simp only [List.length_append, List.length_cons, List.length_nil, hlength]
  omega

/-- Settles O10: a field that does not fit leaves the whole sequence without bytes. -/
theorem pduEncodeFaultsOnOverflow : Obligations.PduEncodeFaultsOnOverflow := by
  rintro u fn fields s ⟨v, hwide⟩
  refine exec_pduEncode_overflow u fn ?_ s
  obtain ⟨hmem, hv⟩ | ⟨hmem, hv⟩ := hwide
  · exact fieldsBytes_eq_none hmem fun hfits => Nat.not_lt.2 (((fieldFits_iff _).1 hfits).1 v rfl) hv
  · exact fieldsBytes_eq_none hmem fun hfits => Nat.not_lt.2 (((fieldFits_iff _).1 hfits).2 v rfl) hv

/-! ## What Decode reads of a frame (R66, R68, R124, R126) -/

theorem eq_receivedCrc_iff (c : Word) (f : Frame) :
    c = receivedCrc f ↔ c.toNat = (f.getD (f.length - 2) 0#8).toNat + 256 * (f.getD (f.length - 1) 0#8).toNat := by
  rw [← BitVec.toNat_inj, receivedCrc, wordOf_toNat, Nat.add_comm]

@[simp] theorem walkFields_length (f : Frame) (k : Nat) (layout : List Width) :
    (walkFields f k layout).length = layout.length := by
  induction layout generalizing k with
  | nil => rfl
  | cons w ws ih => cases w <;> simp [walkFields, ih]

/-- Field `j` of the walk stands where the layout entries before it end. -/
theorem walkFields_getElem? (f : Frame) (k : Nat) {layout : List Width} {j : Nat} {w : Width}
    (h : layout[j]? = some w) :
    (walkFields f k layout)[j]? = some (
      if w = .one then (f.getD (k + layoutBytes (layout.take j)) 0#8).toNat
      else 256 * (f.getD (k + layoutBytes (layout.take j)) 0#8).toNat
        + (f.getD (k + layoutBytes (layout.take j) + 1) 0#8).toNat) := by
  induction layout generalizing k j with
  | nil => simp at h
  | cons x xs ih =>
    cases j with
    | zero =>
      obtain rfl : x = w := by simpa using h
      cases x <;> simp [walkFields, layoutBytes]
    | succ j =>
      have hrest := ih (k + widthBytes x) (j := j) (by simpa using h)
      rw [List.take_succ_cons, layoutBytes, ← Nat.add_assoc, ← hrest]
      cases x <;> rfl

/-- Settles O11: the fields are those of the layout walk. -/
theorem pduDecodeChecksThenWalks : Obligations.PduDecodeChecksThenWalks := by
  intro f layout s hlength
  refine ⟨walkFields f 2 layout, walkFields_length f 2 layout, fun j w hw => walkFields_getElem? f 2 hw, ?_⟩
  rw [exec_pduDecode_fits hlength, if_congr (eq_receivedCrc_iff _ f) rfl rfl, coveredBytes]

/-- Settles O12: the length is tested before the checksum. -/
theorem pduDecodeFaultsOnShortFrame : Obligations.PduDecodeFaultsOnShortFrame := by
  intro f layout s hlength
  exact exec_pduDecode_short (by omega) s

/-! ## Surplus bytes, and the round trip (R127, R128) -/

@[simp] theorem coveredBytes_sealFrame (out : List Byte) : coveredBytes (sealFrame out) = out :=
  coveredBytes_append_leBytes out _

@[simp] theorem receivedCrc_sealFrame (out : List Byte) : receivedCrc (sealFrame out) = crc16 out :=
  receivedCrc_append_leBytes out _

/-- Settles O14: everything before the checksum is checksum input, and the walk ends where the fields end. -/
theorem surplusBytesAreNotDecoded : Obligations.SurplusBytesAreNotDecoded := by
  intro u fn fields bytes surplus s hbytes
  have hfits : 2 + layoutBytes (fields.map fieldWidth) + 2 ≤ (sealFrame ([u, fn] ++ bytes ++ surplus)).length := by
    simp only [sealFrame, List.length_append, List.length_cons, List.length_nil, leBytes_length,
      fieldsBytes_length hbytes]
    omega
  have hwalk : walkFields (sealFrame ([u, fn] ++ bytes ++ surplus)) 2 (fields.map fieldWidth) = fields.map fieldValue := by
    rw [sealFrame, List.append_assoc _ surplus]
    exact walkFields_fieldsBytes hbytes [u, fn] _
  rw [exec_pduDecode_fits hfits, coveredBytes_sealFrame, receivedCrc_sealFrame, if_pos rfl, hwalk]
  rfl

/-- Settles O13: the frame Encode answers is one without surplus bytes. -/
theorem decodeOfEncodeRoundTrip : Obligations.DecodeOfEncodeRoundTrip := by
  intro u fn fields s hfits
  have hbytes := fieldsBytes_eq_flatMap_wireBytes hfits
  have hdecode := fun t => surplusBytesAreNotDecoded u fn fields _ [] t hbytes
  simp only [List.append_nil] at hdecode
  exact ⟨_, _, _, exec_pduEncode_ok u fn hbytes s, rfl, hdecode _, rfl⟩

end Sys2Proof.Proofs
end

section
/-! Proofs of the statements about the Dispatcher (43_dispatcher.md): the request step around its operation (R150 to R152),
the three function-code operations (R154, R156, R160 to R164, R170), and the Save that goes with every write (R163, R245). -/

namespace Sys2Proof.Proofs

open Sys2Proof Sys2Proof.Machine

/-! ## The latest pending Save (R163, R245) -/

/-- Of events appended later, a Save among them is the latest. -/
theorem lastSave_append (older newer : List PortEvent) :
    lastSave (older ++ newer) = (lastSave newer).or (lastSave older) := by
  induction older with
  | nil => simp [lastSave]
  | cons e older ih => cases e <;> simp [lastSave, ih]

theorem saveCurrent_emitSave (s : State) : (emitSave s).SaveCurrent := by
  intro b hsave
  rw [emitSave_events, lastSave_append] at hsave
  exact (Option.some.inj hsave).symm

/-- A response is no Save and writes no register. -/
theorem saveCurrent_afterResponse {s : State} (body : List Byte) (h : s.SaveCurrent) :
    (s.afterResponse body).SaveCurrent := by
  intro b hsave
  rw [afterResponse_events, lastSave_append] at hsave
  exact h b hsave

/-- Of the ways an instruction can end, only a successful write has another bank, and it saves that bank last. -/
theorem execEnds_saveCurrent {i : Instr} {s t : State} (hends : ExecEnds i s t) (h : s.SaveCurrent) :
    t.SaveCurrent := by
  cases hends with
  | component | fault => exact h
  | exception | read => exact saveCurrent_afterResponse _ h
  | write => exact saveCurrent_afterResponse _ (saveCurrent_emitSave _)

theorem serveEnds_saveCurrent {s t : State} {r : Request} {rest : List Request} (hends : ServeEnds s r rest t)
    (h : s.SaveCurrent) : t.SaveCurrent := by
  cases hends with
  | discard | tooShort => exact h
  | ran i t fc body hframe hdecode hexec =>
    have hcurrent : t.SaveCurrent := execEnds_saveCurrent hexec h
    exact hcurrent

/-- Settles O42, by the ways a step can end. -/
theorem stepKeepsSaveCurrent : Obligations.StepKeepsSaveCurrent := by
  intro s t hcurrent hstep
  obtain ⟨_, ⟨_, rfl⟩ | ⟨r, rest, _, hends⟩⟩ := step_ends hstep
  · exact hcurrent
  · exact serveEnds_saveCurrent hends hcurrent

/-! ## Read Holding Registers (R154, R156) -/

/-- Settles O16: past the checksum and the range check, the width of byteCount alone decides between the Fault and the
success response. -/
theorem readOfTooManyRegistersFaults : Obligations.ReadOfTooManyRegistersFaults := by
  intro u start quantity surplus crcRx s hcrc hrange
  rw [exec, execRead_complete, if_pos hcrc.symm, if_pos hrange]
  by_cases hquantity : quantity.toNat ≤ 127
  · rw [if_pos hquantity]
    refine ⟨fun hmany => by omega, fun t r hexec hresult => ?_⟩
    cases hexec
    cases hresult
    exact ⟨rfl, hquantity⟩
  · rw [if_neg hquantity]
    refine ⟨fun _ => rfl, fun t r hexec hresult => ?_⟩
    cases hexec
    cases hresult

/-! ## Write Multiple Registers (R160 to R164) -/

/-- Settles O17: the bank is the one after the run of writes, read register by register. -/
theorem writeStoresSavesAndEchoes : Obligations.WriteStoresSavesAndEchoes := by
  intro u start quantity bc values odd crcRx s hcrc hrange hcount hlength
  subst hcrc
  refine ⟨memWrite s.bank start.toNat values, fun i hi => ?_, exec_write_ok u odd s hrange hcount hlength⟩
  rw [← readReg_eq_getElem _ i hi, ← readReg_eq_getElem _ i hi, readReg_memWrite, hlength]
  simp only [hi, and_true]

/-- The frame length says whether the value words are as many as the quantity; an odd
last byte does not count (R73). -/
theorem writeFrame_length_matches_iff (u : Byte) (start quantity : Word) (bc : Byte) (values : List Word)
    (odd : Option Byte) (c : Word) :
    ((writeFrame u (.complete start quantity bc values odd c)).length = 9 + 2 * quantity.toNat ∨
      (writeFrame u (.complete start quantity bc values odd c)).length = 10 + 2 * quantity.toNat) ↔
    values.length = quantity.toNat := by
  have hodd := option_toList_length_le_one odd
  rw [writeFrame_complete_length]
  omega

/-- Settles O19: a 0x10 response is the end of a successful write, and success is a matter of the value count. -/
theorem writeSucceedsExactlyOnMatchingLength : Obligations.WriteSucceedsExactlyOnMatchingLength := by
  intro u start quantity bc values odd crcRx s t hcrc hrange hcount hexec
  rw [writeFrame_length_matches_iff]
  constructor
  · rintro ⟨r, hresult, hfunction⟩
    obtain ⟨_, _, _, _, _, hreq, _, _, hlength⟩ := write_succeeded_of_result hexec hresult hfunction
    cases hreq
    exact hlength
  · intro hlength
    subst hcrc
    rw [exec_write_ok u odd s hrange hcount hlength] at hexec
    cases hexec
    exact ⟨_, rfl, rfl⟩

/-- R203: either count wrong is the same exception. -/
theorem exec_write_wrong_counts (u : Byte) {start quantity : Word} {bc : Byte} {values : List Word} (odd : Option Byte)
    (s : State) (hrange : start.toNat + quantity.toNat ≤ 1000)
    (hcounts : ¬ (bc.toNat = 2 * quantity.toNat ∧ values.length = quantity.toNat)) :
    exec (.writeMultipleRegisters u
        (.complete start quantity bc values odd (crc16 (writeInput u start quantity bc values odd)))) s
      = .next (s.afterResponse [u, 0x90#8, 3#8]) := by
  rw [exec, execWrite_complete, if_pos rfl, if_pos hrange, if_neg hcounts]

/-- Settles O20: byteCount is one byte, so it is never twice 128 or more. -/
theorem largeWriteGetsIllegalDataValue : Obligations.LargeWriteGetsIllegalDataValue := by
  intro u start quantity bc values odd s hrange hlarge
  have hbyte := bc.isLt
  exact exec_write_wrong_counts u odd s hrange (by omega)

theorem framerLength_writeFrame (u : Byte) (start quantity : Word) (bc : Byte) (values : List Word)
    (odd : Option Byte) (c : Word) :
    framerLength (writeFrame u (.complete start quantity bc values odd c)) = some (7 + bc.toNat + 2) := rfl

/-- The framer's cut (R248) makes byteCount the number of data bytes, the odd last one included. -/
theorem byteCount_of_correctlyFramed {u : Byte} {start quantity : Word} {bc : Byte} {values : List Word}
    {odd : Option Byte} {c : Word}
    (h : correctlyFramed (writeFrame u (.complete start quantity bc values odd c))) :
    bc.toNat = 2 * values.length + odd.toList.length := by
  rw [correctlyFramed, framerLength_writeFrame, writeFrame_complete_length, Option.some.injEq] at h
  omega

/-- Settles O46: an even byteCount is twice the number of value words. -/
theorem framedWriteChecksAgree : Obligations.FramedWriteChecksAgree := by
  intro u start quantity bc values odd crcRx hframed
  have hbytes := byteCount_of_correctlyFramed hframed
  have hodd := option_toList_length_le_one odd
  constructor <;> omega

/-! ## Illegal Function, and requests too short (R154, R160, R170) -/

/-- Settles O24, by the one lemma about what the operation does. -/
theorem otherFunctionGetsIllegalFunction : Obligations.OtherFunctionGetsIllegalFunction :=
  execIllegalFunction_eq

/-- Settles O25: the decoder leaves the bytes of such a frame as they are, and that instruction faults. -/
theorem shortRequestFaults : Obligations.ShortRequestFaults := by
  rintro u fc body s (⟨rfl, hlength⟩ | ⟨rfl, hlength⟩) <;> simp only [List.length_cons] at hlength
  · exact ⟨.readHoldingRegisters u (.short body), by rw [decode_read, decodeRead_short (by omega)],
      execRead_short u body s⟩
  · exact ⟨.writeMultipleRegisters u (.short body), by rw [decode_write, decodeWrite_short (by omega)],
      execWrite_short u body s⟩

/-! ## The request step (R150, R151, R152, R205) -/

/-- Past EntryCheck and FunctionSelect, the operation of the frame runs. -/
theorem serveRequest_accepted {r : Request} {s : State} {i : Instr} (hunit : r.frame.head? = some s.deviceId)
    (hdecode : decode r.frame = .ok i) : serveRequest r s = exec i (s.toPhase .functionIdentified) := by
  obtain ⟨more, hframe⟩ := List.head?_eq_some_iff.mp hunit
  have haccept : entryCheck r.frame s.deviceId = .accept := by rw [hframe, entryCheck_own]
  simp only [serveRequest, haccept, hdecode]

/-- Without a unit id EntryCheck faults, and without a function code FunctionSelect does. -/
theorem serveRequest_tooShort {r : Request} {s : State} (h : r.frame = [] ∨ r.frame = [s.deviceId]) :
    serveRequest r s = .next (raiseFault .frameTooShort s) := by
  obtain h | h := h
  · simp only [serveRequest, h, entryCheck]
  · simp only [serveRequest, h, entryCheck_own, decode]

/-- EntryCheck discards a frame for another unit before it looks at any other byte. -/
theorem serveRequest_otherUnit {r : Request} {s : State} {u : Byte} {more : List Byte} (hframe : r.frame = u :: more)
    (hunit : u ≠ s.deviceId) : serveRequest r s = .next (discardRequest s) := by
  simp only [serveRequest, hframe, entryCheck, if_neg hunit]

/-- Settles O29: a request is captured, its operation runs, and it is finished. -/
theorem stepRunsDecodedInstruction : Obligations.StepRunsDecodedInstruction := by
  intro s r rest i hfaulted hselected hunit hdecode
  rw [step_of_selected hfaulted hselected, serveRequest_accepted (s := captureRequest r rest s) hunit hdecode]
  rfl

/-- A frame that waits alone is the one the step takes. -/
theorem step_of_one_waiting {s : State} {r : Request} (hfaulted : s.faulted = false) (hwaiting : s.waiting = [r]) :
    step s = mapNext finishRequest (serveRequest r (captureRequest r [] s)) :=
  step_of_selected hfaulted (by rw [hwaiting, selectRequest])

/-- The step on a frame without a unit id or without a function code. -/
theorem step_tooShort {s : State} {r : Request} (hfaulted : s.faulted = false) (hwaiting : s.waiting = [r])
    (hframe : r.frame = [] ∨ r.frame = [s.deviceId]) :
    step s = .next { s with phase := .faulted, faulted := true, busy := false, captured := none, waiting := [],
                            served := s.served + 1, result := some (.fault .frameTooShort) } := by
  rw [step_of_one_waiting hfaulted hwaiting, serveRequest_tooShort (s := captureRequest r [] s) hframe]
  rfl

/-- The step on a frame for another unit: FAULTED was 0, so the engine is Idle again. -/
theorem step_otherUnit {s : State} {r : Request} {u : Byte} {more : List Byte} (hfaulted : s.faulted = false)
    (hwaiting : s.waiting = [r]) (hframe : r.frame = u :: more) (hunit : u ≠ s.deviceId) :
    step s = .next { s with phase := .idle, busy := false, captured := none, waiting := [],
                            served := s.served + 1, result := some .discard } := by
  rw [step_of_one_waiting hfaulted hwaiting, serveRequest_otherUnit (s := captureRequest r [] s) hframe hunit]
  simp [mapNext, finishRequest, discardRequest, captureRequest, hfaulted]

/-- Settles O30, by the two frames that do not pass EntryCheck. -/
theorem entryCheckFaultsOrDiscards : Obligations.EntryCheckFaultsOrDiscards := by
  intro s requester f hfaulted hwaiting
  exact ⟨fun hempty => step_tooShort hfaulted hwaiting (.inl hempty),
    fun u rest hframe hunit => step_otherUnit hfaulted hwaiting hframe hunit⟩

/-- Settles O31: the frame passes EntryCheck and has no function code. -/
theorem ownUnitIdAloneFaults : Obligations.OwnUnitIdAloneFaults :=
  fun _ _ hfaulted hwaiting => step_tooShort hfaulted hwaiting (.inr rfl)

end Sys2Proof.Proofs
end

section
/-! Proofs of the statements about exceptions (60_exceptions.md): the wire exceptions and their precision (R202 to R204,
R208), and the order of the causes (R207). -/

namespace Sys2Proof.Proofs

open Sys2Proof Sys2Proof.Machine

/-! ## The wire exceptions (R202, R203, R204, R208) -/

/-- Settles O18: the two counts are tested together. -/
theorem writeWithWrongCountsGetsIllegalDataValue : Obligations.WriteWithWrongCountsGetsIllegalDataValue := by
  intro u start quantity bc values odd crcRx s hcrc hrange hcounts
  subst hcrc
  exact exec_write_wrong_counts u odd s hrange (not_and_or.mpr hcounts)

/-- Settles O22: past the checksum, the range is the next test of both operations. -/
theorem rangePastBankGetsIllegalDataAddress : Obligations.RangePastBankGetsIllegalDataAddress := by
  intro u start quantity surplus bc values odd s hpast
  have hrange : ¬ start.toNat + quantity.toNat ≤ 1000 := by omega
  constructor
  · rw [exec, execRead_complete, if_pos rfl, if_neg hrange]
  · rw [exec, execWrite_complete, if_pos rfl, if_neg hrange]

/-- Settles O23: the checksum is the first test of both operations on a frame long enough. -/
theorem wrongChecksumGetsChecksumFailure : Obligations.WrongChecksumGetsChecksumFailure := by
  intro u start quantity crcRx surplus bc values odd s
  constructor <;> intro hcrc
  · rw [exec, execRead_complete, if_neg hcrc.symm]
  · rw [exec, execWrite_complete, if_neg hcrc.symm]

theorem exceptionCode_bounds (code : ExceptionCode) : 1 ≤ exceptionCode code ∧ exceptionCode code ≤ 4 := by
  cases code <;> decide

/-- Settles O26, by the ways an instruction can end: of the two that answer a response, a success keeps the function code
0x03 or 0x10. -/
theorem exceptionsArePrecise : Obligations.ExceptionsArePrecise := by
  intro i f s t r hframe hexec hresult hnotRead hnotWrite
  cases ends_of_exec hexec with
  | component c answer hnone => cases hnone.symm.trans hframe
  | fault => cases hresult
  | exception f' code hframe' =>
    cases hframe'.symm.trans hframe
    obtain ⟨hlow, hhigh⟩ := exceptionCode_bounds code
    have hcode : (BitVec.ofNat 8 (exceptionCode code)).toNat = exceptionCode code := Nat.mod_eq_of_lt (by omega)
    exact ⟨_, by rwa [hcode], by rwa [hcode], rfl⟩
  | read =>
    cases hresult
    exact absurd rfl hnotRead
  | write =>
    cases hresult
    exact absurd rfl hnotWrite

/-! ## The order of the causes (R207), over the frames that hold the fields of a request -/

theorem leBytes_inj {c d : Word} : leBytes c = leBytes d ↔ c = d := by
  refine ⟨fun h => ?_, congrArg leBytes⟩
  obtain ⟨hlo, hhi⟩ : loByte c = loByte d ∧ hiByte c = hiByte d := by simpa [leBytes] using h
  rw [← wordOf_hiByte_loByte c, hlo, hhi, wordOf_hiByte_loByte]

/-- A big-endian field as R207's raw bytes give it (R42). -/
theorem hiByte_loByte_toNat (w : Word) : 256 * (hiByte w).toNat + (loByte w).toNat = w.toNat := by
  rw [← wordOf_toNat, wordOf_hiByte_loByte]

theorem readFrame_complete_eq (u : Byte) (start quantity : Word) (surplus : List Byte) (c : Word) :
    readFrame u (.complete start quantity surplus c) = readInput u start quantity surplus ++ leBytes c := by
  simp [readFrame, encodeRead, readInput]

theorem writeFrame_complete_eq (u : Byte) (start quantity : Word) (bc : Byte) (values : List Word) (odd : Option Byte)
    (c : Word) :
    writeFrame u (.complete start quantity bc values odd c)
      = writeInput u start quantity bc values odd ++ leBytes c := by
  simp [writeFrame, encodeWrite, writeInput]

/-- Of the causes R207 lists, a frame of this unit with a served function code and its full length leaves these. -/
theorem outcomeByPriority_of_fields {u fc : Byte} {f : Frame} {input : List Byte} {start quantity c : Word} (b : Bank)
    (hframe : f = input ++ leBytes c) (hunit : f.getD 0 0#8 = u)
    (hfunction : f.getD 1 0#8 = fc) (hserved : fc = 0x03#8 ∨ fc = 0x10#8)
    (hlength : (if fc = 0x03#8 then 8 else 9) ≤ f.length)
    (hstart : 256 * (f.getD 2 0#8).toNat + (f.getD 3 0#8).toNat = start.toNat)
    (hquantity : 256 * (f.getD 4 0#8).toNat + (f.getD 5 0#8).toNat = quantity.toNat) :
    outcomeByPriority u b f =
      if crc16 input = c then
        if start.toNat + quantity.toNat ≤ 1000 then
          if fc = 0x03#8 then
            if quantity.toNat ≤ 127 then
              .respond (sealFrame ([u, 0x03#8, BitVec.ofNat 8 (2 * quantity.toNat)]
                ++ registerBytes b start.toNat quantity.toNat))
            else .fault .fieldOverflow
          else if (f.getD 6 0#8).toNat = 2 * quantity.toNat ∧ writeValueCount f.length = quantity.toNat then
            .respond (sealFrame (u :: 0x10#8 :: (f.drop 2).take 4))
          else .respond (sealFrame [u, fc ||| 0x80#8, 3#8])
        else .respond (sealFrame [u, fc ||| 0x80#8, 2#8])
      else .respond (sealFrame [u, fc ||| 0x80#8, 4#8]) := by
  have hcrc : leBytes (crc16 (f.take (f.length - 2))) ≠ f.drop (f.length - 2) ↔ crc16 input ≠ c := by
    simp [hframe, leBytes_inj]
  have hrange : 1000 < start.toNat + quantity.toNat ↔ ¬ start.toNat + quantity.toNat ≤ 1000 := Nat.not_le.symm
  have hmany : 128 ≤ quantity.toNat ↔ ¬ quantity.toNat ≤ 127 := Nat.not_le.symm
  have hlong : 8 ≤ f.length := by
    split at hlength <;> omega
  have hcount : (f.length - 9) / 2 = writeValueCount f.length := rfl
  simp only [outcomeByPriority, hcrc, hunit, hfunction, hstart, hquantity, hrange, hmany, hcount, exceptionReply]
  rw [if_neg (by omega), if_neg (by simp), if_neg (by omega), if_neg (by tauto), if_neg (by omega)]
  simp only [ite_not, ite_and]

theorem outcomeByPriority_readFrame (u : Byte) (b : Bank) (start quantity : Word) (surplus : List Byte) (c : Word) :
    outcomeByPriority u b (readFrame u (.complete start quantity surplus c)) =
      if crc16 (readInput u start quantity surplus) = c then
        if start.toNat + quantity.toNat ≤ 1000 then
          if quantity.toNat ≤ 127 then
            .respond (sealFrame (u :: 0x03#8 :: BitVec.ofNat 8 (2 * quantity.toNat)
              :: registerBytes b start.toNat quantity.toNat))
          else .fault .fieldOverflow
        else .respond (sealFrame [u, 0x83#8, 2#8])
      else .respond (sealFrame [u, 0x83#8, 4#8]) := by
  rw [outcomeByPriority_of_fields b (readFrame_complete_eq ..) (u := u) (fc := 0x03#8) rfl rfl (.inl rfl)
    (by rw [readFrame_complete_length]; exact Nat.le_add_right 8 _)
    (hiByte_loByte_toNat start) (hiByte_loByte_toNat quantity), if_pos (c := 0x03#8 = 0x03#8) rfl]
  rfl

theorem outcomeByPriority_writeFrame (u : Byte) (b : Bank) (start quantity : Word) (bc : Byte) (values : List Word)
    (odd : Option Byte) (c : Word) :
    outcomeByPriority u b (writeFrame u (.complete start quantity bc values odd c)) =
      if crc16 (writeInput u start quantity bc values odd) = c then
        if start.toNat + quantity.toNat ≤ 1000 then
          if bc.toNat = 2 * quantity.toNat ∧ values.length = quantity.toNat then
            .respond (sealFrame (u :: 0x10#8 :: (beBytes start ++ beBytes quantity)))
          else .respond (sealFrame [u, 0x90#8, 3#8])
        else .respond (sealFrame [u, 0x90#8, 2#8])
      else .respond (sealFrame [u, 0x90#8, 4#8]) := by
  rw [outcomeByPriority_of_fields b (writeFrame_complete_eq ..) (u := u) (fc := 0x10#8) rfl rfl (.inr rfl)
    (by rw [writeFrame_complete_length, Nat.add_assoc]; exact Nat.le_add_right 9 _)
    (hiByte_loByte_toNat start) (hiByte_loByte_toNat quantity), if_neg (c := 0x10#8 = 0x03#8) (by decide),
    writeValueCount_writeFrame]
  rfl

/-- The length check of its function comes before everything else in such a frame. -/
theorem outcomeByPriority_tooShort {u fc : Byte} {body : List Byte} (b : Bank) (hserved : fc = 0x03#8 ∨ fc = 0x10#8)
    (hlength : (u :: fc :: body).length < if fc = 0x03#8 then 8 else 9) :
    outcomeByPriority u b (u :: fc :: body) = .fault .frameTooShort := by
  have hother : ¬ (fc ≠ 0x03#8 ∧ fc ≠ 0x10#8) := by tauto
  simp only [outcomeByPriority, List.getD_cons_succ, List.getD_cons_zero]
  rw [if_neg (by simp), if_neg (by simp), if_neg (by simp), if_neg hother, if_pos hlength]

theorem outcomeByPriority_otherFunction {u fc : Byte} (body : List Byte) (b : Bank) (hread : fc ≠ 0x03#8)
    (hwrite : fc ≠ 0x10#8) :
    outcomeByPriority u b (u :: fc :: body) = .respond (sealFrame [u, fc ||| 0x80#8, 1#8]) := by
  simp only [outcomeByPriority, List.getD_cons_succ, List.getD_cons_zero]
  rw [if_neg (by simp), if_neg (by simp), if_neg (by simp), if_pos ⟨hread, hwrite⟩]
  rfl

/-! ## The operations answer in this order -/

theorem execRead_result (u : Byte) {req : ReadRequest} (hwf : req.wellFormed = true) (s : State) :
    ∃ t, exec (.readHoldingRegisters u req) s = .next t ∧
      t.result = some (outcomeByPriority u s.bank (readFrame u req)) := by
  cases req with
  | short body =>
    have hlength : body.length < 6 := of_decide_eq_true hwf
    refine ⟨_, execRead_short u body s, ?_⟩
    rw [readFrame, encodeRead, outcomeByPriority_tooShort _ (.inl rfl) (Nat.add_lt_add_right hlength 2)]
    rfl
  | complete start quantity surplus c =>
    refine ⟨_, execRead_complete u start quantity surplus c s, ?_⟩
    rw [outcomeByPriority_readFrame]
    split_ifs <;> rfl

theorem execWrite_result (u : Byte) {req : WriteRequest} (hwf : req.wellFormed = true) (s : State) :
    ∃ t, exec (.writeMultipleRegisters u req) s = .next t ∧
      t.result = some (outcomeByPriority u s.bank (writeFrame u req)) := by
  cases req with
  | short body =>
    have hlength : body.length < 7 := of_decide_eq_true hwf
    refine ⟨_, execWrite_short u body s, ?_⟩
    rw [writeFrame, encodeWrite, outcomeByPriority_tooShort _ (.inr rfl) (Nat.add_lt_add_right hlength 2)]
    rfl
  | complete start quantity bc values odd c =>
    refine ⟨_, execWrite_complete u start quantity bc values odd c s, ?_⟩
    rw [outcomeByPriority_writeFrame]
    split_ifs <;> rfl

/-- The instruction a frame of this unit decodes to answers the first cause that applies to the frame. -/
theorem exec_result_of_decode {u fc : Byte} {body : List Byte} {i : Instr} (hdecode : decode (u :: fc :: body) = .ok i)
    (s : State) :
    ∃ t, exec i s = .next t ∧ t.result = some (outcomeByPriority u s.bank (u :: fc :: body)) := by
  obtain ⟨rfl, h⟩ | ⟨rfl, h⟩ | ⟨⟨hread, hwrite⟩, h⟩ := decode_cases u fc body <;> cases h.symm.trans hdecode
  · simpa only [readFrame, encodeRead_decodeRead] using execRead_result u (decodeRead_wellFormed body) s
  · simpa only [writeFrame, encodeWrite_decodeWrite] using execWrite_result u (decodeWrite_wellFormed body) s
  · exact ⟨_, execIllegalFunction_eq u fc body s, by rw [outcomeByPriority_otherFunction body _ hread hwrite]; rfl⟩

/-- Settles O35: EntryCheck and FunctionSelect test the first three causes, and the operation of the frame the others. -/
theorem stepAnswersByPriority : Obligations.StepAnswersByPriority := by
  intro s r hfaulted hwaiting
  match hframe : r.frame with
  | [] => exact ⟨_, step_tooShort hfaulted hwaiting (.inl hframe), rfl⟩
  | u :: more =>
    by_cases hunit : u = s.deviceId
    · subst hunit
      match more with
      | [] => exact ⟨_, step_tooShort hfaulted hwaiting (.inr hframe), by simp [outcomeByPriority]⟩
      | fc :: body =>
        obtain ⟨i, hdecode⟩ : ∃ i, decode r.frame = .ok i := by
          obtain ⟨-, h⟩ | ⟨-, h⟩ | ⟨-, h⟩ := decode_cases s.deviceId fc body <;> exact ⟨_, hframe ▸ h⟩
        obtain ⟨t, hexec, hresult⟩ := exec_result_of_decode (hframe ▸ hdecode) (s.serving r [])
        refine ⟨finishRequest t, ?_, hresult⟩
        rw [step_of_one_waiting hfaulted hwaiting,
          serveRequest_accepted (s := captureRequest r [] s) (by rw [hframe]; rfl) hdecode, hexec, mapNext]
    · exact ⟨_, step_otherUnit hfaulted hwaiting hframe hunit, by simp [outcomeByPriority, hunit]⟩

end Sys2Proof.Proofs
end

section
/-! Proofs of the statements about the Request port (60_exceptions.md R215, R217, R218): an idle step, and what the engine
does not see of a request, which are the frames that wait beside it, the events before it, and its requester. -/

namespace Sys2Proof.Proofs

open Sys2Proof Sys2Proof.Machine

/-- Settles O33: of no frames, none is taken. -/
theorem idleStepKeepsAllState : Obligations.IdleStepKeepsAllState := by
  intro s hfaulted hwaiting
  have hnone : selectRequest s.served s.waiting = none := selectRequest_eq_none.mpr hwaiting
  simp [step, hfaulted, hnone]

/-! ## Changes of the state that serving a request does not see -/

/-- `g` commutes with every change of the state that `serveRequest` makes, and leaves alone what it reads: the bank,
DEVICE_ID and, where a Fault keeps it, the working register. -/
structure Unseen (g : State → State) : Prop where
  bank (s : State) : (g s).bank = s.bank
  deviceId (s : State) : (g s).deviceId = s.deviceId
  crc (s : State) : (g s).crc = s.crc
  toPhase (p : Phase) (s : State) : (g s).toPhase p = g (s.toPhase p)
  discard (s : State) : discardRequest (g s) = g (discardRequest s)
  fault (e : FaultReason) (c : Word) (s : State) : (g s).afterFault e c = g (s.afterFault e c)
  respond (body : List Byte) (s : State) : (g s).afterResponse body = g (s.afterResponse body)
  save (b : Bank) (s : State) : emitSave { g s with bank := b } = g (emitSave { s with bank := b })

/-- An instruction that stands for a frame does the same beside an unseen change. -/
theorem exec_unseen {g : State → State} (hg : Unseen g) {i : Instr} (hframe : encode i ≠ none) (s : State) :
    exec i (g s) = mapNext g (exec i s) := by
  cases i with
  | readHoldingRegisters u req =>
    cases req with
    | short body => simp only [exec, execRead_short, mapNext, hg.crc, hg.fault]
    | complete start quantity surplus c =>
      simp only [exec, execRead_complete, mapNext, hg.bank, hg.fault, hg.respond, apply_ite g]
  | writeMultipleRegisters u req =>
    cases req with
    | short body => simp only [exec, execWrite_short, mapNext, hg.crc, hg.fault]
    | complete start quantity bc values odd c =>
      simp only [exec, execWrite_complete, mapNext, hg.bank, hg.save, hg.respond, apply_ite g]
  | illegalFunction u fc rest => simp only [exec, execIllegalFunction_eq, mapNext, hg.respond]
  | crcCompute | crcValidate | pduEncode | pduDecode => exact absurd rfl hframe

theorem serveRequest_unseen {g : State → State} (hg : Unseen g) (r : Request) (s : State) :
    serveRequest r (g s) = mapNext g (serveRequest r s) := by
  rw [serveRequest, serveRequest, hg.deviceId]
  cases entryCheck r.frame s.deviceId with
  | tooShort => simp only [mapNext, raiseFault_eq, hg.crc, hg.fault]
  | discard => simp only [mapNext, hg.discard]
  | accept =>
    cases hdecode : decode r.frame with
    | error => simp only [mapNext, raiseFault_eq, hg.crc, hg.fault]
    | ok i => simp only [hg.toPhase, exec_unseen hg (encode_ne_none_of_decode hdecode)]

/-- Only the bytes of a request are looked at. -/
theorem serveRequest_congr {r r' : Request} (h : r.frame = r'.frame) (s : State) :
    serveRequest r s = serveRequest r' s := by
  rw [serveRequest, serveRequest, h]

/-! ## The frames that wait beside the one served (R51, R217, R218) -/

/-- Other frames waiting. -/
def withWaiting (waiting : List Request) (s : State) : State := { s with waiting := waiting }

theorem unseen_withWaiting (waiting : List Request) : Unseen (withWaiting waiting) where
  bank _ := rfl
  deviceId _ := rfl
  crc _ := rfl
  toPhase _ _ := rfl
  discard _ := rfl
  fault _ _ _ := rfl
  respond _ _ := rfl
  save _ _ := rfl

theorem serveEnds_waiting {s t : State} {r : Request} {rest : List Request} (h : ServeEnds s r rest t) :
    t.waiting = rest := by
  cases h with
  | discard | tooShort => rfl
  | ran i t fc body hframe hdecode hends =>
    obtain ⟨-, -, -, hwaiting, -⟩ := execEnds_frame hends
    exact hwaiting

/-- A frame taken among others is served as though it alone had waited. -/
theorem step_alone {s : State} {r : Request} {rest : List Request} (hfaulted : s.faulted = false)
    (hselected : selectRequest s.served s.waiting = some (r, rest)) :
    step (withWaiting [r] s) = mapNext (withWaiting []) (step s) := by
  have hcapture : captureRequest r [] (withWaiting [r] s) = withWaiting [] (captureRequest r rest s) := rfl
  rw [step_of_selected hfaulted hselected, step_of_one_waiting (s := withWaiting [r] s) hfaulted rfl, hcapture,
    serveRequest_unseen (unseen_withWaiting [])]
  cases serveRequest r (captureRequest r rest s) <;> rfl

/-- Settles O36: the frames that wait beside the one taken are unseen. -/
theorem servedFrameIsOneThatWaited : Obligations.ServedFrameIsOneThatWaited := by
  intro s t hwaiting hstep
  obtain ⟨hfaulted, ⟨hnone, -⟩ | ⟨r, rest, hselected, hends⟩⟩ := step_ends hstep
  · exact absurd hnone hwaiting
  · obtain ⟨before, after, hbefore, hrest⟩ := selectRequest_some hselected
    refine ⟨before, r, after, hbefore, (serveEnds_waiting hends).trans hrest, ?_⟩
    have halone := step_alone hfaulted hselected
    rwa [hstep] at halone

/-! ## The requester of the frame served (R217) -/

/-- Earlier events pending. -/
def withEarlierEvents (earlier : List PortEvent) (s : State) : State := { s with events := earlier ++ s.events }

theorem unseen_withEarlierEvents (earlier : List PortEvent) : Unseen (withEarlierEvents earlier) where
  bank _ := rfl
  deviceId _ := rfl
  crc _ := rfl
  toPhase _ _ := rfl
  discard _ := rfl
  fault _ _ _ := rfl
  respond body s := by simp [withEarlierEvents, State.afterResponse]
  save b s := by simp [withEarlierEvents, emitSave]

/-- Another request captured, with every response sent to its requester. -/
def withCaptured (r : Request) (s : State) : State :=
  { s with captured := some r, events := s.events.map (PortEvent.redirect (some r.requester)) }

theorem unseen_withCaptured (r : Request) : Unseen (withCaptured r) where
  bank _ := rfl
  deviceId _ := rfl
  crc _ := rfl
  toPhase _ _ := rfl
  discard _ := rfl
  fault _ _ _ := rfl
  respond body s := by simp [withCaptured, State.afterResponse, PortEvent.redirect]
  save b s := by simp [withCaptured, emitSave, PortEvent.redirect]

/-- The step on a frame that waits alone, from the run on the same frame from connection 0 with no event pending. -/
theorem step_of_requester {s t : State} {f : Frame} (a : Nat) (hfaulted : s.faulted = false)
    (hserved : serveRequest ⟨0, f⟩ (captureRequest ⟨0, f⟩ [] { s with events := [] }) = .next t) :
    step { s with waiting := [⟨a, f⟩] }
      = .next (finishRequest (withEarlierEvents s.events (withCaptured ⟨a, f⟩ t))) := by
  have hcapture : captureRequest ⟨a, f⟩ [] { s with waiting := [⟨a, f⟩] }
      = withEarlierEvents s.events (withCaptured ⟨a, f⟩ (captureRequest ⟨0, f⟩ [] { s with events := [] })) := by
    simp [withEarlierEvents, withCaptured, captureRequest]
  rw [step_of_one_waiting (s := { s with waiting := [⟨a, f⟩] }) hfaulted rfl, hcapture,
    serveRequest_unseen (unseen_withEarlierEvents _), serveRequest_unseen (unseen_withCaptured _),
    serveRequest_congr (r := ⟨a, f⟩) (r' := ⟨0, f⟩) rfl, hserved]
  rfl

theorem serveRequest_completes (r : Request) (s : State) : ∃ t, serveRequest r s = .next t := by
  rw [serveRequest]
  cases entryCheck r.frame s.deviceId with
  | tooShort | discard => exact ⟨_, rfl⟩
  | accept =>
    cases decode r.frame with
    | error => exact ⟨_, rfl⟩
    | ok i => exact everyInstructionCompletes i _

theorem redirect_redirect (d d' : Option Nat) (e : PortEvent) : (e.redirect d).redirect d' = e.redirect d' := by
  cases e <;> rfl

/-- Settles O37: both steps come from one run, with its responses sent to the one or to the other connection. -/
theorem requesterIsInvisible : Obligations.RequesterIsInvisible := by
  intro s f a b hfaulted
  obtain ⟨t, hserved⟩ := serveRequest_completes ⟨0, f⟩ (captureRequest ⟨0, f⟩ [] { s with events := [] })
  refine ⟨finishRequest t, t.events.map (PortEvent.redirect (some a)), step_of_requester a hfaulted hserved, ?_⟩
  have hredirect : (t.events.map (PortEvent.redirect (some a))).map (PortEvent.redirect (some b))
      = t.events.map (PortEvent.redirect (some b)) := by
    simp [redirect_redirect]
  rw [hredirect]
  exact step_of_requester b hfaulted hserved

end Sys2Proof.Proofs
end

section
/-! Proofs of the statements about startup and the host's framer (70_reset_and_hazards.md R241, R242, R248). -/

namespace Sys2Proof.Proofs

open Sys2Proof Sys2Proof.Machine

/-! ## Startup (R241, R242) -/

theorem imageValid_iff (image : List Nat) :
    imageValid image = true ↔ image.length = 1000 ∧ ∀ v ∈ image, v ≤ 65535 := by
  simp [imageValid]

/-- Each register of the bank of a valid image holds the image's value, unwrapped. -/
theorem getElem?_eq_bankOfImage {image : List Nat} (hvalid : imageValid image = true) {i : Nat} (hi : i < 1000) :
    image[i]? = some (bankOfImage image)[i].toNat := by
  obtain ⟨hlength, hvalues⟩ := (imageValid_iff image).mp hvalid
  have hi' : i < image.length := hlength ▸ hi
  have hfits : image[i] < 65536 := Nat.lt_succ_of_le (hvalues _ (List.getElem_mem hi'))
  simp [bankOfImage, hi', Nat.mod_eq_of_lt hfits]

/-- An absent image is read as 1000 zeros. -/
theorem bankOfImage_zeros : bankOfImage (List.replicate 1000 0) = Bank.zero := by
  apply Vector.ext
  intro i hi
  simp only [bankOfImage, Bank.zero, Vector.getElem_ofFn, Vector.getElem_replicate, List.getD_replicate _ hi]

theorem boot_of_valid (id : Byte) {image : Option (List Nat)}
    (hvalid : imageValid (image.getD (List.replicate 1000 0)) = true) :
    State.boot id image = .next (State.resetWith id (bankOfImage (image.getD (List.replicate 1000 0)))) := by
  cases image with
  | none => rw [State.boot, Option.getD_none, bankOfImage_zeros]
  | some l => exact if_pos hvalid

theorem boot_of_invalid (id : Byte) {image : List Nat} (hinvalid : ¬ imageValid image = true) :
    State.boot id (some image) = .refused .malformedImage :=
  if_neg hinvalid

/-- Settles O44: a valid image is the bank of the reset state, and any other is refused. -/
theorem startupLeavesResetState : Obligations.StartupLeavesResetState := by
  constructor
  · rintro id image values rfl hvalues
    have hvalid := (imageValid_iff _).mpr hvalues
    exact ⟨_, boot_of_valid id hvalid, rfl, rfl, rfl, rfl, rfl, rfl, fun i hi => getElem?_eq_bankOfImage hvalid hi⟩
  · intro id image hbroken
    refine boot_of_invalid id fun hvalid => ?_
    obtain ⟨hlength, hvalues⟩ := (imageValid_iff image).mp hvalid
    obtain hshort | ⟨v, hmem, hwide⟩ := hbroken
    · exact hshort hlength
    · exact absurd (hvalues v hmem) hwide.not_ge

/-! ## The host's framer (R248, R72) -/

/-- The framer's length for a served function code is at least the one its operation checks for. -/
theorem leastLength_le_of_correctlyFramed {f : Frame} (hframed : correctlyFramed f)
    (hserved : f.getD 1 0#8 = 0x03#8 ∨ f.getD 1 0#8 = 0x10#8) : leastLength (f.getD 1 0#8) ≤ f.length := by
  match f with
  | [] | [_] => simp at hserved
  | u :: fc :: rest =>
    obtain rfl | rfl : fc = 0x03#8 ∨ fc = 0x10#8 := hserved
    · have hcut : 8 = (u :: 0x03#8 :: rest).length := Option.some.inj hframed
      exact hcut.le
    · match rest with
      | [] | [_] | [_, _] | [_, _, _] | [_, _, _, _] => cases hframed
      | a :: b :: c :: d :: bc :: data =>
        have hcut : 7 + bc.toNat + 2 = (u :: 0x10#8 :: a :: b :: c :: d :: bc :: data).length :=
          Option.some.inj hframed
        have hleast : 9 ≤ (u :: 0x10#8 :: a :: b :: c :: d :: bc :: data).length := by omega
        exact hleast

theorem two_le_leastLength (fc : Byte) : 2 ≤ leastLength fc := by
  unfold leastLength
  split_ifs <;> decide

/-- Of the causes R207 lists, each that faults as too short is a length below the least for the function code. -/
theorem outcomeByPriority_ne_tooShort (u : Byte) (b : Bank) {f : Frame}
    (hlength : leastLength (f.getD 1 0#8) ≤ f.length) : outcomeByPriority u b f ≠ .fault .frameTooShort := by
  have htwo := two_le_leastLength (f.getD 1 0#8)
  have hempty : ¬ f.length = 0 := by omega
  have hone : ¬ f.length = 1 := by omega
  intro h
  simp only [outcomeByPriority, exceptionReply, if_neg hempty, if_neg hone] at h
  by_cases hother : f.getD 1 0#8 ≠ 0x03#8 ∧ f.getD 1 0#8 ≠ 0x10#8
  · rw [if_pos hother] at h
    split_ifs at h
  · have hlong : ¬ f.length < if f.getD 1 0#8 = 0x03#8 then 8 else 9 := by
      obtain hfc | hfc : f.getD 1 0#8 = 0x03#8 ∨ f.getD 1 0#8 = 0x10#8 := by tauto
      all_goals
        rw [hfc] at hlength ⊢
        exact hlength.not_gt
    rw [if_neg hother, if_neg hlong] at h
    split_ifs at h
    cases h

/-- Settles O45: the step answers the first cause that applies, and the frame is not below the least length. -/
theorem correctlyFramedIsNeverTooShort : Obligations.CorrectlyFramedIsNeverTooShort := by
  intro s t r hwaiting hframed hserved hstep hresult
  obtain ⟨hfaulted, -⟩ := step_ends hstep
  obtain ⟨t', hstep', hresult'⟩ := stepAnswersByPriority s r hfaulted hwaiting
  cases hstep.symm.trans hstep'
  rw [hresult, Option.some.injEq] at hresult'
  exact outcomeByPriority_ne_tooShort s.deviceId s.bank (leastLength_le_of_correctlyFramed hframed hserved)
    hresult'.symm

end Sys2Proof.Proofs
end
